-- ==== Sys2Proof/Word.lean ====
section
/-! DEFINITION. The word types of the machine (00_scope.md R9, R13). All bit numbers count from 0 at
the least significant bit (R12). -/

namespace Sys2Proof

/-- A machine word: 15 bits (R9, R47). -/
abbrev Word := BitVec 15

/-- A register slot's container: 16 bits (R9, R22). -/
abbrev Reg := BitVec 16

/-- A CPU address as an instruction operand or Z names it: 12 bits (R9, R18). -/
abbrev Addr := BitVec 12

/-- A byte of an image file or of the memory representation (20_memory.md R84, R90). -/
abbrev Byte := BitVec 8

end Sys2Proof
end

