-- ==== Sys2Proof/Syntax.lean ====
section
/-! DEFINITION. The instructions: one constructor per row of spec/opcode_table.json
(30_encoding.md R114). -/

namespace Sys2Proof

/-- An instruction with its operand, a CPU address (R112). -/
inductive Instr where
  /-- RELINT: enable interrupts (R160). -/
  | relint
  /-- INHINT: inhibit interrupts (R161). -/
  | inhint
  /-- TCF k: transfer control (R170). -/
  | tcf (k : Addr)
  /-- CA k: load A (R180). -/
  | ca (k : Addr)
  /-- CS k: load the complement into A (R182). -/
  | cs (k : Addr)
  /-- DXCH k: exchange A and L with the pair k, k + 1 (R190). -/
  | dxch (k : Addr)
  /-- TS k: store A and skip on overflow (R192). -/
  | ts (k : Addr)
deriving DecidableEq, Repr

end Sys2Proof
end

