-- ==== Sys2Proof/WellFormed.lean ====
section
/-! DEFINITION. Which operands each format can encode (30_encoding.md R111, R112). -/

namespace Sys2Proof

/-- Format `E10`: an erasable CPU address, 0 to 01777 (R112). -/
def fitsE10 (k : Addr) : Bool := k.toNat ≤ 0o1777

/-- Format `D9`: an even erasable CPU address, 0 to 01776 (R112, R117). -/
def fitsD9 (k : Addr) : Bool := fitsE10 k && k.toNat % 2 == 0

/-- The operand lies in its format's range (R112). `N` has no operand and `A12` admits all 12 bits. -/
def Instr.wellFormed : Instr → Bool
  | .relint => true
  | .inhint => true
  | .tcf _ => true
  | .ca _ => true
  | .cs _ => true
  | .dxch k => fitsD9 k
  | .ts k => fitsE10 k

end Sys2Proof
end

