-- ==== Sys2Proof/Decode.lean ====
section
/-! DEFINITION. The decoder and the encoder, both from the decoder table of 30_encoding.md R114
(R110 to R118, R127). -/

namespace Sys2Proof

/-- The operation of a table entry, without its operand. -/
inductive Opcode where
  | relint
  | inhint
  | tcf
  | ca
  | cs
  | dxch
  | ts
deriving DecidableEq, Repr

/-- One row of R114: `mask` marks the operand bits, its complement the opcode bits (R111). -/
structure Entry where
  opcode : Opcode
  base : Word
  mask : Word
  /-- MCT (R114, 70_reset_and_hazards.md R280). -/
  timing : Nat
deriving DecidableEq, Repr

/-- Why a word is not an instruction. -/
inductive DecodeError where
  /-- "Fails if nothing matches" (R113, R118, R119). -/
  | noEntry (w : Word)
deriving DecidableEq, Repr

/-- The rows of R114, each with the mask of R111 and R115. -/
def Opcode.entry : Opcode → Entry
  | .relint => ⟨.relint, 0o00003, 0o00000, 1⟩
  | .inhint => ⟨.inhint, 0o00004, 0o00000, 1⟩
  | .tcf => ⟨.tcf, 0o10000, 0o07777, 1⟩
  | .ca => ⟨.ca, 0o30000, 0o07777, 2⟩
  | .cs => ⟨.cs, 0o40000, 0o07777, 2⟩
  | .dxch => ⟨.dxch, 0o52001, 0o01776, 3⟩
  | .ts => ⟨.ts, 0o54000, 0o01777, 2⟩

/-- The decoder table, in the order of R114. -/
def decoderTable : List Entry :=
  [Opcode.relint, .inhint, .tcf, .ca, .cs, .dxch, .ts].map Opcode.entry

/-- A word matches an entry when its opcode bits are the entry's base (R113). -/
def Entry.matchesWord (e : Entry) (w : Word) : Bool := e.base == (w &&& ~~~e.mask)

/-- The entry with the smallest mask, the first of equals (R113). -/
def smallestMask : List Entry → Option Entry
  | [] => none
  | e :: es =>
    match smallestMask es with
    | none => some e
    | some b => if b.mask < e.mask then some b else some e

/-- The instruction of an opcode and an operand, zero-extended to 12 bits (R112); format `N` has no
operand bits. -/
def Opcode.instr (o : Opcode) (k : Addr) : Instr :=
  match o with
  | .relint => .relint
  | .inhint => .inhint
  | .tcf => .tcf k
  | .ca => .ca k
  | .cs => .cs k
  | .dxch => .dxch k
  | .ts => .ts k

/-- The decode algorithm of R113. -/
def decode (w : Word) : Except DecodeError Instr :=
  match smallestMask (decoderTable.filter (fun e => e.matchesWord w)) with
  | none => .error (.noEntry w)
  | some e => .ok (e.opcode.instr ((w &&& e.mask).setWidth 12))

/-- The opcode of an instruction. -/
def Instr.opcode : Instr → Opcode
  | .relint => .relint
  | .inhint => .inhint
  | .tcf _ => .tcf
  | .ca _ => .ca
  | .cs _ => .cs
  | .dxch _ => .dxch
  | .ts _ => .ts

/-- The operand of an instruction, 0 where it has none (R112). -/
def Instr.operand : Instr → Addr
  | .relint => 0
  | .inhint => 0
  | .tcf k => k
  | .ca k => k
  | .cs k => k
  | .dxch k => k
  | .ts k => k

/-- "`opcode_base | operand`" (R127). -/
def encode (i : Instr) : Word := i.opcode.entry.base ||| i.operand.setWidth 15

/-- The MCT count of an instruction (R114, R280). -/
def timing (i : Instr) : Nat := i.opcode.entry.timing

/-- The instruction the decoder reads from a table word. An instruction is one 15-bit word (R110), so
only bits 14 to 0 are read; a word held in a 16-bit container has nothing above them that the decoder
is given (log entry 12). -/
def decodeTableWord (_nbits w : Nat) : Option Instr :=
  match decode (BitVec.ofNat 15 w) with
  | .ok i => some i
  | .error _ => none

end Sys2Proof
end

