-- ==== Sys2Proof/Config.lean ====
section
/-! DEFINITION. The named parameters of 00_scope.md R10 with the defaults the spec uses, and which
values of them make sense. The host fixes them before the run (60_exceptions.md R250). The spec
leaves no value open that a step reads, so there is no free value here. -/

namespace Sys2Proof.Config

/-- `LOAD_FORMAT`: the layouts of an image stream (20_memory.md R90, R93). -/
inductive LoadFormat where
  /-- Banks F0 to F39, right-aligned words (R90, the default). -/
  | native
  /-- Banks F2, F3, F0, F1, F4 to F39, left-aligned words (R93). -/
  | yaagc
  /-- Banks F0 to F39, left-aligned words (R93, the literal reading of §4.B.1). -/
  | nativeShifted
deriving DecidableEq, Repr

/-- The parameters of R10, "Named parameters a model takes as arguments". -/
structure Params where
  /-- `RESET_Z` (D21). -/
  resetZ : Addr
  /-- `SB_INIT` (D4). -/
  sbInit : Bool
  /-- `FIXED_BANK_LIMIT` (D7). -/
  fixedBankLimit : Nat
  /-- `TIMER_INTERVAL` (D17). -/
  timerInterval : Nat
  /-- `LOAD_FORMAT` (D23). -/
  loadFormat : LoadFormat
  /-- `RUPT_INDEX` of T5RUPT (D18). -/
  t5rupt : Nat
  /-- `RUPT_INDEX` of T3RUPT (D18). -/
  t3rupt : Nat
  /-- `RUPT_INDEX` of T4RUPT (D18). -/
  t4rupt : Nat
  /-- `ADDR_ZRUPT` (D1). -/
  addrZrupt : Nat
  /-- `ADDR_BRUPT` (D1). -/
  addrBrupt : Nat
  /-- `ADDR_TIME2` (D1). -/
  addrTime2 : Nat
  /-- `ADDR_TIME1` (D1). -/
  addrTime1 : Nat
  /-- `ADDR_TIME3` (D1). -/
  addrTime3 : Nat
  /-- `ADDR_TIME4` (D1). -/
  addrTime4 : Nat
  /-- `ADDR_TIME5` (D1). -/
  addrTime5 : Nat
  /-- `ADDR_TIME6` (D1). -/
  addrTime6 : Nat
deriving DecidableEq, Repr

/-- The defaults of R10. -/
def defaults : Params where
  resetZ := 0o4000
  sbInit := false
  fixedBankLimit := 40
  timerInterval := 893
  loadFormat := .native
  t5rupt := 2
  t3rupt := 3
  t4rupt := 4
  addrZrupt := 0o15
  addrBrupt := 0o17
  addrTime2 := 0o24
  addrTime1 := 0o25
  addrTime3 := 0o26
  addrTime4 := 0o27
  addrTime5 := 0o30
  addrTime6 := 0o31

/-- The addresses that the `ADDR_*` parameters place. -/
abbrev Params.placed (p : Params) : List Nat :=
  [p.addrZrupt, p.addrBrupt, p.addrTime1, p.addrTime2, p.addrTime3, p.addrTime4, p.addrTime5,
    p.addrTime6]

/-- A slot of plain 16-bit storage: below 061 and none of A, L, Q, EB, FB, Z, BB and CYR
(10_state.md R33; Q is left out because it has a name of its own, R25). -/
abbrev PlainSlot (a : Nat) : Prop := 7 ≤ a ∧ a < 0o61 ∧ a ≠ 0o20

/-- DESIGN CHOICE (log entry 13): the parameter values the rules make sense for. The placed
registers are distinct plain slots (R31, R32), the interrupt indices are distinct and their vectors
are CPU addresses (R230), an interval is longer than any step (R240), and the bank limit is at most
the 40 banks that exist (R47) and admits the unswitched banks 2 and 3 (R70). -/
abbrev Params.Valid (p : Params) : Prop :=
  (∀ a ∈ p.placed, PlainSlot a) ∧ p.placed.Nodup ∧
  [p.t5rupt, p.t3rupt, p.t4rupt].Nodup ∧
  (∀ i ∈ [p.t5rupt, p.t3rupt, p.t4rupt], i < 512) ∧
  3 ≤ p.timerInterval ∧ 4 ≤ p.fixedBankLimit ∧ p.fixedBankLimit ≤ 40

end Sys2Proof.Config
end

