-- ==== Sys2Proof/Machine/State.lean ====
section
/-! DEFINITION. The machine state (10_state.md R49) as plain data, its faults, and reset
(70_reset_and_hazards.md R260). -/

namespace Sys2Proof.Machine

/-- The faults of 60_exceptions.md R220. Each ends the run (R221). -/
inductive Fault where
  /-- `DecodeFailure`: the word at `address` matches no decoder entry. Raised by the fetch and decode
  of phase 1. Safe: the spec stops there too (R118, R221). -/
  | decodeFailure (word : Word) (address : Nat)
  /-- `OutOfRange`: an address at or above 010000, or a fixed bank at or above the limit. Raised by
  any read or write of banked memory; the bank is `none` when the address itself is out of range.
  Safe: the spec stops there too (R73, R74, R221). -/
  | outOfRange (address : Nat) (bank : Option Nat)
  /-- `Fixed`: a write to a fixed address. Raised by any write of banked memory. Safe: the spec stops
  there too (R75, R221). -/
  | fixed (address : Nat)
deriving DecidableEq, Repr

/-- Why the model gives no meaning. -/
inductive Refusal where
  /-- An instruction whose arm of `exec` is not written. No arm answers it now. Safe: the model stops
  where the hardware goes on. -/
  | notModelled (mnemonic : String)
deriving DecidableEq, Repr

/-- The closed set of unprogrammed sequences (R41; 45_unprogrammed_sequences.md R201 to R205). -/
inductive SeqName where
  | pincTime1
  | pincTime2
  | pincTime3
  | pincTime4
  | pincTime5
deriving DecidableEq, Repr

/-- The accumulators of the four counter timers, unbounded integers (R42, D31). -/
structure Timers where
  time1 : Int
  time3 : Int
  time4 : Int
  time5 : Int
deriving DecidableEq, Repr

/-- Banked storage: bytes by address, strictly rising, none equal to what an unlisted address reads
as. Word `i` is the byte pair `2 * i`, `2 * i + 1`, high byte first, bit 15 clear, which for fixed
memory is the native image's byte layout (20_memory.md R90; log entry 3). -/
abbrev Memory := List Host.Cell

/-- Erasable or fixed storage (20_memory.md R63). -/
inductive Region where
  | erasable
  | fixed
deriving DecidableEq, Repr

/-- One storage word: region, decimal bank index, offset in the bank (20_memory.md R60, R63, R70). -/
structure Loc where
  region : Region
  bank : Nat
  offset : Nat
deriving DecidableEq, Repr

/-- The machine state of R49, with the host's parameters of 00_scope.md R10 beside it. -/
structure State where
  /-- The 49 register slots, addresses 0 to 060 (R20). Slot 6 (BB) is a view of EB and FB and its
  container is unused (R28). -/
  regs : Vector Reg 49
  /-- The super-bit flag (R37). -/
  sb : Bool
  /-- The interrupt-inhibit flag (R38). -/
  intsOff : Bool
  /-- The posted, undelivered interrupt indices, strictly rising (R39). -/
  pending : List Nat
  /-- The unprogrammed-sequence stack, its head the top (R40). -/
  seqStack : List SeqName
  /-- The timer accumulators (R42). -/
  timers : Timers
  /-- The total of step timings (R44). -/
  mct : Nat
  /-- 8 banks of 256 words (R47). -/
  erasable : Memory
  /-- 40 banks of 1024 words (R47). -/
  fixed : Memory
  /-- The fault record, once a fault was raised (R46). -/
  fault : Option Fault
  /-- The parameters the host fixed before the run (00_scope.md R10, R250; log entry 1). -/
  params : Config.Params
deriving DecidableEq, Repr

/-- The accumulators' offsets: 0, 0, `-interval*3/4`, `-interval/2`, truncated toward zero (R42). -/
def Timers.initial (interval : Nat) : Timers where
  time1 := 0
  time3 := 0
  time4 := -((interval * 3 / 4 : Nat) : Int)
  time5 := -((interval / 2 : Nat) : Int)

/-- The reset state of R260 for given parameters and a fixed memory (the loaded image). -/
def State.resetWith (p : Config.Params) (image : Memory) : State where
  regs := (Vector.replicate 49 (0 : Reg)).set 5 (p.resetZ.setWidth 16)
  sb := p.sbInit
  intsOff := false
  pending := []
  seqStack := []
  timers := Timers.initial p.timerInterval
  mct := 0
  erasable := []
  fixed := image
  fault := none
  params := p

/-- The machine after reset with the default parameters and an image that reaches no word (R260). -/
def State.reset : State := State.resetWith Config.defaults []

end Sys2Proof.Machine
end

