-- ==== Sys2Proof/Machine/Flags.lean ====
section
/-! DEFINITION. The overflow state of A, the machine's only computed flag (10_state.md R45). -/

namespace Sys2Proof.Machine

/-- The three answers of R45. -/
inductive Overflow where
  | positive
  | negative
  | none
deriving DecidableEq, Repr

/-- `ovf(A)`: positive if A[15] = 0 and A[14] = 1, negative if A[15] = 1 and A[14] = 0 (R45). -/
def ovf (a : Reg) : Overflow :=
  match a.getLsbD 15, a.getLsbD 14 with
  | false, true => .positive
  | true, false => .negative
  | _, _ => .none

end Sys2Proof.Machine
end

