-- ==== Sys2Proof/Machine/Operands.lean ====
section
/-! DEFINITION. Register slots by name, bit fields, and the operand tests of the instructions
(10_state.md R22, R26 to R30; 43_load.md R180). -/

namespace Sys2Proof.Machine

/-- A (R23). -/
abbrev slotA : Nat := 0
/-- L (R24). -/
abbrev slotL : Nat := 1
/-- Q (R25). -/
abbrev slotQ : Nat := 2
/-- EB (R26). -/
abbrev slotEB : Nat := 3
/-- FB (R27). -/
abbrev slotFB : Nat := 4
/-- Z (R29). -/
abbrev slotZ : Nat := 5
/-- BB (R28). -/
abbrev slotBB : Nat := 6
/-- CYR (R30). -/
abbrev slotCYR : Nat := 0o20

/-- CPU addresses below this reach the register file (20_memory.md R80). -/
abbrev regLimit : Nat := 0o61

/-- One past the last CPU address (20_memory.md R74). -/
abbrev cpuLimit : Nat := 0o10000

/-- `rotr15(v) = (v[14:0] >> 1) | (v[0] << 14)`, 15 bits in a 16-bit container (R30, 00_scope.md
R15). -/
def rotr15 (v : Reg) : Reg :=
  ((v &&& 0o77777) >>> 1) ||| ((v &&& 1) <<< 14)

/-- What a slot stores when `v` is written to it (the table of R22). BB has no storage of its own;
`setReg` splits its writes. -/
def storedValue (a : Nat) (v : Reg) : Reg :=
  if a = slotL then v &&& 0o77777
  else if a = slotEB then v &&& 0o3400
  else if a = slotFB then v &&& 0o76000
  else if a = slotZ then v &&& 0o7777
  else if a = slotCYR then rotr15 v
  else v

/-- The BB view: `FB[14:10] << 10 | EB[10:8]` (R28). -/
def bbView (fb eb : Reg) : Reg := (fb &&& 0o76000) ||| ((eb &&& 0o3400) >>> 8)

/-- EB as a BB write reconstitutes it: `(v & 7) << 8` (R28). -/
def ebOfBB (v : Reg) : Reg := (v &&& 7) <<< 8

/-- "if `addr & 06000 == 0` (erasable)": the operands CA and CS write back (R180). -/
def isErasableOperand (k : Addr) : Bool := (k &&& 0o6000) == 0

/-- The second address of a DXCH pair (30_encoding.md R117). -/
def pairSecond (k : Addr) : Nat := k.toNat + 1

end Sys2Proof.Machine
end

