-- ==== Sys2Proof/Machine/Ops.lean ====
section
/-! DEFINITION. The named operations over registers, banked memory and the redirected address space
(10_state.md R20 to R37; 20_memory.md R70 to R83), and taking an interrupt or a fault
(60_exceptions.md R221, R231 to R234). -/

namespace Sys2Proof.Machine

/-! ### Bytes and words of storage -/

/-- What an unlisted byte reads as: erasable memory and fixed words that no image reaches are 0
(70_reset_and_hazards.md R260). -/
def Memory.unlisted : Byte := 0

/-- The byte at an address. -/
def Memory.readByte : Memory → Nat → Byte
  | [], _ => Memory.unlisted
  | (b, v) :: m, a => if b = a then v else Memory.readByte m a

/-- Puts a byte at an address, keeping the list rising and free of unlisted values. -/
def Memory.writeByte : Memory → Nat → Byte → Memory
  | [], a, v => if v = Memory.unlisted then [] else [(a, v)]
  | (b, w) :: m, a, v =>
    if a < b then (if v = Memory.unlisted then (b, w) :: m else (a, v) :: (b, w) :: m)
    else if a = b then (if v = Memory.unlisted then m else (a, v) :: m)
    else (b, w) :: Memory.writeByte m a v

/-- The 15-bit word number `i`: the byte pair at `2 * i`, high byte first (log entry 3). -/
def Memory.readWord (m : Memory) (i : Nat) : Word :=
  (m.readByte (2 * i) ++ m.readByte (2 * i + 1)).setWidth 15

/-- Stores the 15-bit word number `i`. -/
def Memory.writeWord (m : Memory) (i : Nat) (w : Word) : Memory :=
  (m.writeByte (2 * i) ((w >>> 8).setWidth 8)).writeByte (2 * i + 1) (w.setWidth 8)

/-- The canonical form of a storage of `words` words: addresses strictly rising and inside the
storage, no entry equal to what an unlisted byte reads as, and bit 15 of every word clear. -/
abbrev Memory.wf (words : Nat) (m : Memory) : Prop :=
  m.Pairwise (fun c d => c.1 < d.1) ∧
  ∀ c ∈ m, c.2 ≠ Memory.unlisted ∧ c.1 < 2 * words ∧ (c.1 % 2 = 0 → c.2 < 0x80)

/-- The words of erasable memory: 8 banks of 256 (R47). -/
abbrev erasableWords : Nat := 8 * 256

/-- The words of fixed memory: 40 banks of 1024 (R47). -/
abbrev fixedWords : Nat := 40 * 1024

/-- The number of a storage word in its region. -/
def Loc.index (l : Loc) : Nat :=
  match l.region with
  | .erasable => l.bank * 256 + l.offset
  | .fixed => l.bank * 1024 + l.offset

/-- The word stored at a location. -/
def readLoc (s : State) (l : Loc) : Word :=
  match l.region with
  | .erasable => s.erasable.readWord l.index
  | .fixed => s.fixed.readWord l.index

/-- Stores a word of erasable memory. -/
def storeErasable (s : State) (l : Loc) (w : Word) : State :=
  { s with erasable := s.erasable.writeWord l.index w }

/-! ### The register file -/

/-- The container of a slot. -/
def slot (s : State) (a : Nat) : Reg := (s.regs[a]?).getD 0

/-- Stores into a slot's container, with no editing. -/
def putSlot (s : State) (a : Nat) (v : Reg) : State := { s with regs := s.regs.setIfInBounds a v }

/-- `reg[a]` (R21): the stored value, and for BB the view (R28). -/
def reg (s : State) (a : Nat) : Reg :=
  if a = slotBB then bbView (slot s slotFB) (slot s slotEB) else slot s a

/-- `set(a, v)` (R22): the single write operation, with its editing side effects. -/
def setReg (s : State) (a : Nat) (v : Reg) : State :=
  if a = slotBB then
    putSlot (putSlot s slotFB (storedValue slotFB v)) slotEB (storedValue slotEB (ebOfBB v))
  else putSlot s a (storedValue a v)

/-- `eb = EB[10:8]` (R36). -/
def ebField (s : State) : Nat := ((slot s slotEB).extractLsb' 8 3).toNat

/-- `fb = FB[14:10]` (R36). -/
def fbField (s : State) : Nat := ((slot s slotFB).extractLsb' 10 5).toNat

/-- "for A and L the ceiling is `0xFFFF`; for all other registers the ceiling is `0x7FFF`" (R34). -/
def ceiling (r : Nat) : Reg := if r = slotA ∨ r = slotL then 0xFFFF else 0x7FFF

/-- `increment(r)` (R34): the state after it, and whether it overflowed. -/
def increment (s : State) (r : Nat) : State × Bool :=
  if ceiling r ≤ reg s r then (setReg s r 0, true) else (setReg s r (reg s r + 1), false)

/-- Z as an address (R29). -/
def zAddr (s : State) : Nat := (reg s slotZ).toNat

/-- `Z <- v`, a register write (00_scope.md R15). -/
def setZ (s : State) (v : Reg) : State := setReg s slotZ v

/-- `Z <- Z + 1` (40_execution_cycle.md R142). -/
def advanceZ (s : State) : State := setZ s (reg s slotZ + 1)

/-! ### Banked memory -/

/-- The bank of the fixed window (20_memory.md R72). -/
def fbank (fb : Nat) (sb : Bool) : Nat := if sb = true ∧ 0o30 ≤ fb then fb + 0o10 else fb

/-- Where a CPU address below 010000 reaches banked memory (the table of R70). -/
def locate (s : State) (a : Nat) : Loc :=
  if a < 0o1400 then ⟨.erasable, a / 256, a % 256⟩
  else if a < 0o2000 then ⟨.erasable, ebField s, a - 0o1400⟩
  else if a < 0o4000 then ⟨.fixed, fbank (fbField s) s.sb, a - 0o2000⟩
  else if a < 0o6000 then ⟨.fixed, 2, a - 0o4000⟩
  else ⟨.fixed, 3, a - 0o6000⟩

/-- The banked read (R74). -/
def bankedRead (s : State) (a : Nat) : Except Fault Word :=
  if cpuLimit ≤ a then .error (.outOfRange a none)
  else
    let l := locate s a
    if l.region = .fixed ∧ s.params.fixedBankLimit ≤ l.bank then .error (.outOfRange a (some l.bank))
    else .ok (readLoc s l)

/-- The banked write (R75): fixed addresses fail, erasable ones keep bits 14 to 0. -/
def bankedWrite (s : State) (a : Nat) (v : Reg) : Except Fault State :=
  if cpuLimit ≤ a then .error (.outOfRange a none)
  else
    let l := locate s a
    match l.region with
    | .fixed => .error (.fixed a)
    | .erasable => .ok (storeErasable s l (v.setWidth 15))

/-! ### The redirected address space -/

/-- `MemRead(a, 1)` (20_memory.md R80): 16 bits below 061, 15 bits zero-extended above (R83). -/
def memRead (s : State) (a : Nat) : Except Fault Reg :=
  if a < regLimit then .ok (reg s a)
  else
    match bankedRead s a with
    | .error f => .error f
    | .ok w => .ok (w.setWidth 16)

/-- `MemWrite(a, 1, v)` (R81). -/
def memWrite (s : State) (a : Nat) (v : Reg) : Except Fault State :=
  if a < regLimit then .ok (setReg s a v) else bankedWrite s a v

/-- A memory error inside an instruction ends the step with its fault (R81). -/
def orFault (r : Except Fault State) : Host.Outcome State Fault Refusal :=
  match r with
  | .error f => .fault f
  | .ok s => .next s

/-! ### Interrupts and faults -/

/-- Adds an index to a strictly rising list; one already there leaves it unchanged (R39). -/
def insertIndex (i : Nat) : List Nat → List Nat
  | [] => [i]
  | j :: js => if i < j then i :: j :: js else if i = j then j :: js else j :: insertIndex i js

/-- `post(i)` (60_exceptions.md R231). -/
def post (s : State) (i : Nat) : State := { s with pending := insertIndex i s.pending }

/-- The vector of an interrupt index: `04000 + 4*i` (R232). -/
def vector (i : Nat) : Reg := BitVec.ofNat 16 (0o4000 + 4 * i)

/-- Interrupt entry's first write: `ZRUPT <- Z` (R232). -/
def saveZ (s : State) : State := setReg s s.params.addrZrupt (reg s slotZ)

/-- Taking interrupt `i` (R232): ZRUPT, BRUPT, Z, `intsOff` and `pending`, in the source's order. The
read of BRUPT's word may fault (R222). -/
def deliver (s : State) (i : Nat) : Except Fault State :=
  let s1 := saveZ s
  match memRead s1 (zAddr s1) with
  | .error f => .error f
  | .ok w =>
    let s2 := setZ (setReg s1 s1.params.addrBrupt w) (vector i)
    .ok { s2 with intsOff := true, pending := s2.pending.filter (fun j => j ≠ i) }

/-- The interrupt phase 3 takes, if any: the lowest pending index when interrupts are enabled (R233,
R234). -/
def deliverable (s : State) : Option Nat := if s.intsOff then none else s.pending.min?

/-- Phase 3 of a step (R233). -/
def deliverInterrupt (s : State) : Except Fault State :=
  match deliverable s with
  | none => .ok s
  | some i => deliver s i

/-- `raise Fault(code, info)` (R221): the fault is recorded, and nothing else is saved. -/
def raise (s : State) (f : Fault) : State := { s with fault := some f }

end Sys2Proof.Machine
end

