-- ==== Sys2Proof/Machine/Sequences.lean ====
section
/-! DEFINITION. The unprogrammed sequences (45_unprogrammed_sequences.md R200 to R207). Each answers
the state after it and the child sequence it chains, if any. -/

namespace Sys2Proof.Machine

/-- Every sequence takes 1 MCT (R200). -/
def seqTiming (_q : SeqName) : Nat := 1

/-- PINC TIME1 (R201): on overflow it chains PINC TIME2. -/
def pincTime1 (s : State) : State × Option SeqName :=
  let r := increment s s.params.addrTime1
  (r.1, if r.2 then some .pincTime2 else none)

/-- PINC TIME2 (R202): an overflow is discarded. -/
def pincTime2 (s : State) : State × Option SeqName :=
  ((increment s s.params.addrTime2).1, none)

/-- What PINC TIME3, TIME4 and TIME5 share (R203): increment `addr`; on overflow post `index`,
whatever `intsOff` is. -/
def pincPosting (s : State) (addr index : Nat) : State × Option SeqName :=
  let r := increment s addr
  (if r.2 then post r.1 index else r.1, none)

/-- PINC TIME3 (R203), which posts T3RUPT. -/
def pincTime3 (s : State) : State × Option SeqName :=
  pincPosting s s.params.addrTime3 s.params.t3rupt

/-- PINC TIME4 (R204), which posts T4RUPT. -/
def pincTime4 (s : State) : State × Option SeqName :=
  pincPosting s s.params.addrTime4 s.params.t4rupt

/-- PINC TIME5 (R205), which posts T5RUPT. -/
def pincTime5 (s : State) : State × Option SeqName :=
  pincPosting s s.params.addrTime5 s.params.t5rupt

/-- `execute_seq(q)` (40_execution_cycle.md R140). -/
def executeSeq (q : SeqName) (s : State) : State × Option SeqName :=
  match q with
  | .pincTime1 => pincTime1 s
  | .pincTime2 => pincTime2 s
  | .pincTime3 => pincTime3 s
  | .pincTime4 => pincTime4 s
  | .pincTime5 => pincTime5 s

/-- Pushes a sequence (R40). -/
def push (s : State) (q : SeqName) : State := { s with seqStack := q :: s.seqStack }

/-- A sequence step's phase 1 on the state whose top was popped: the child goes on top (R144). -/
def runSeq (q : SeqName) (s : State) : State :=
  match executeSeq q s with
  | (t, none) => t
  | (t, some child) => push t child

end Sys2Proof.Machine
end

