-- ==== Sys2Proof/Machine/CounterTimers.lean ====
section
/-! DEFINITION. The counter timers, phase 2 of a step (60_exceptions.md R240; 10_state.md R42). -/

namespace Sys2Proof.Machine

/-- A timer's `inc(delta)` (R240): the accumulator after it, the interval subtracted once when it was
reached, and whether it wrapped. -/
def tick (interval delta : Nat) (acc : Int) : Int × Bool :=
  let sum := acc + delta
  if (interval : Int) ≤ sum then (sum - interval, true) else (sum, false)

/-- Pushes `q` for a timer that rolled over. -/
def pushIf (wrapped : Bool) (q : SeqName) (s : State) : State := if wrapped then push s q else s

/-- `advance_timers(t)` (R240), in the order TIME1, TIME3, TIME4, TIME5; the last pushed is on top
(R237). -/
def advanceTimers (s : State) (t : Nat) : State :=
  let n := s.params.timerInterval
  let r1 := tick n t s.timers.time1
  let r3 := tick n t s.timers.time3
  let r4 := tick n t s.timers.time4
  let r5 := tick n t s.timers.time5
  pushIf r5.2 .pincTime5 (pushIf r4.2 .pincTime4 (pushIf r3.2 .pincTime3 (pushIf r1.2 .pincTime1
    { s with timers := ⟨r1.1, r3.1, r4.1, r5.1⟩ })))

end Sys2Proof.Machine
end

