-- ==== Sys2Proof/Machine/Cycle.lean ====
section
/-! DEFINITION. The execution cycle (40_execution_cycle.md R140 to R149). -/

namespace Sys2Proof.Machine

/-- The fetch (R141): `MemRead(Z, 1)`, of which the decoder is given bits 14 to 0 (30_encoding.md
R110). -/
def fetchWord (s : State) : Except Fault Word :=
  match memRead s (zAddr s) with
  | .error f => .error f
  | .ok v => .ok (v.setWidth 15)

/-- Fetch and decode; a word that matches no entry is a fault that leaves Z unadvanced (R142, R220). -/
def fetchInstr (s : State) : Except Fault Instr :=
  match fetchWord s with
  | .error f => .error f
  | .ok w =>
    match decode w with
    | .error (.noEntry w') => .error (.decodeFailure w' (zAddr s))
    | .ok i => .ok i

/-- Phase 2 of a step whose phase 1 took `t` MCT (R140, R145). -/
def phase2 (t : Nat) (s : State) : State := advanceTimers { s with mct := s.mct + t } t

/-- Phases 2 and 3 (R140, R146). -/
def finishStep (t : Nat) (s : State) : Host.Outcome State Fault Refusal :=
  orFault (deliverInterrupt (phase2 t s))

/-- The state whose top sequence was popped (R144). -/
def popped (s : State) (rest : List SeqName) : State := { s with seqStack := rest }

/-- One step (R140), with `ex` as the meaning of an instruction. In the faulted state no step runs:
it answers the fault that stands (R148, R221). -/
def cycle (ex : Instr → State → Host.Outcome State Fault Refusal) (s : State) :
    Host.Outcome State Fault Refusal :=
  match s.fault with
  | some f => .fault f
  | none =>
    match s.seqStack with
    | q :: rest => finishStep (seqTiming q) (runSeq q (popped s rest))
    | [] =>
      match fetchInstr s with
      | .error f => .fault f
      | .ok i =>
        match ex i (advanceZ s) with
        | .next t => finishStep (timing i) t
        | .fault f => .fault f
        | .refused r => .refused r

/-- The state a faulting step has reached when it raises (R223; log entry 6): unchanged when the fetch
or the decode faults, Z advanced when the instruction faults, and ZRUPT saved after phases 1 and 2
when interrupt entry faults on BRUPT's word. -/
def reached (ex : Instr → State → Host.Outcome State Fault Refusal) (s : State) : State :=
  match s.seqStack with
  | q :: rest => saveZ (phase2 (seqTiming q) (runSeq q (popped s rest)))
  | [] =>
    match fetchInstr s with
    | .error _ => s
    | .ok i =>
      match ex i (advanceZ s) with
      | .next t => saveZ (phase2 (timing i) t)
      | _ => advanceZ s

/-! ### Placing a word where the next fetch reads -/

/-- Stores a word at a location, as the loader does for fixed memory (20_memory.md R90). -/
def placeWord (s : State) (l : Loc) (w : Word) : State :=
  match l.region with
  | .erasable => storeErasable s l w
  | .fixed => { s with fixed := s.fixed.writeWord l.index w }

/-- Z can fetch a word placed in banked memory: it names no register, is a CPU address, and the bank
it reaches is in range. -/
def fetchesBanked (s : State) : Bool :=
  regLimit ≤ zAddr s && zAddr s < cpuLimit &&
    ((locate s (zAddr s)).region == .erasable ||
      (locate s (zAddr s)).bank < s.params.fixedBankLimit)

/-- The word placed where the next step fetches: at Z when Z reaches banked memory, else at 04000 with
Z moved there; no fault stands and no sequence is pending, so the next step fetches (log entry 10). -/
def placedForFetch (s : State) (w : Word) : State :=
  let s1 := { s with seqStack := [], fault := none }
  let s2 := if fetchesBanked s1 then s1 else setZ s1 0o4000
  placeWord s2 (locate s2 (zAddr s2)) w

end Sys2Proof.Machine
end

