-- ==== Sys2Proof/Machine/ExchangeStore.lean ====
section
/-! DEFINITION. DXCH and TS (44_exchange_store.md). -/

namespace Sys2Proof.Machine

/-- DXCH k (R190): both reads, then the two memory writes in address order, then A, then L. -/
def execDxch (k : Addr) (s : State) : Host.Outcome State Fault Refusal :=
  match memRead s k.toNat with
  | .error e => .fault e
  | .ok m0 =>
    match memRead s (pairSecond k) with
    | .error e => .fault e
    | .ok m1 =>
      match memWrite s k.toNat (reg s slotA) with
      | .error e => .fault e
      | .ok s1 =>
        match memWrite s1 (pairSecond k) (reg s slotL) with
        | .error e => .fault e
        | .ok s2 => .next (setReg (setReg s2 slotA m0) slotL m1)

/-- TS's end (R192): on overflow A becomes +1 or -1 and the next word is skipped. -/
def skipOnOverflow (s : State) : State :=
  match ovf (reg s slotA) with
  | .positive => advanceZ (setReg s slotA 0o000001)
  | .negative => advanceZ (setReg s slotA 0o177776)
  | .none => s

/-- TS k (R192): the write first, then the overflow test of A. -/
def execTs (k : Addr) (s : State) : Host.Outcome State Fault Refusal :=
  match memWrite s k.toNat (reg s slotA) with
  | .error e => .fault e
  | .ok s1 => .next (skipOnOverflow s1)

end Sys2Proof.Machine
end

