-- ==== Sys2Proof/Machine/InterruptControl.lean ====
section
/-! DEFINITION. RELINT and INHINT (41_interrupt_control.md). A meaning runs after the fetch and
`Z <- Z + 1` (40_execution_cycle.md R140). -/

namespace Sys2Proof.Machine

/-- RELINT (R160): `intsOff <- false`. -/
def execRelint (s : State) : Host.Outcome State Fault Refusal := .next { s with intsOff := false }

/-- INHINT (R161): `intsOff <- true`. -/
def execInhint (s : State) : Host.Outcome State Fault Refusal := .next { s with intsOff := true }

end Sys2Proof.Machine
end

