-- ==== Sys2Proof/Machine/Load.lean ====
section
/-! DEFINITION. CA and CS (43_load.md). -/

namespace Sys2Proof.Machine

/-- What CA and CS share (R180, R182): read the operand, put `f` of it into A with no sign extension
(R181), then write the value read back when the operand is erasable, so that editing registers edit
again (R183). -/
def loadA (f : Reg → Reg) (k : Addr) (s : State) : Host.Outcome State Fault Refusal :=
  match memRead s k.toNat with
  | .error e => .fault e
  | .ok v =>
    let s1 := setReg s slotA (f v)
    if isErasableOperand k then orFault (memWrite s1 k.toNat v) else .next s1

/-- CA k (R180): A gets the value read. -/
def execCa (k : Addr) (s : State) : Host.Outcome State Fault Refusal := loadA (fun v => v) k s

/-- CS k (R182): A gets its 16-bit complement. -/
def execCs (k : Addr) (s : State) : Host.Outcome State Fault Refusal := loadA (fun v => ~~~v) k s

end Sys2Proof.Machine
end

