-- ==== Sys2Proof/Machine/Transfer.lean ====
section
/-! DEFINITION. TCF (42_transfer.md). -/

namespace Sys2Proof.Machine

/-- TCF k (R170): `Z <- k`, whatever k reaches (30_encoding.md R120). -/
def execTcf (k : Addr) (s : State) : Host.Outcome State Fault Refusal :=
  .next (setZ s (k.setWidth 16))

end Sys2Proof.Machine
end

