-- ==== Sys2Proof/Machine/Dispatch.lean ====
section
/-! DEFINITION. One arm per instruction (30_encoding.md R114). -/

namespace Sys2Proof.Machine

def exec (i : Instr) (s : State) : Host.Outcome State Fault Refusal :=
  match i with
  | .relint => Sys2Proof.Machine.execRelint s
  | .inhint => Sys2Proof.Machine.execInhint s
  | .tcf k => Sys2Proof.Machine.execTcf k s
  | .ca k => Sys2Proof.Machine.execCa k s
  | .cs k => Sys2Proof.Machine.execCs k s
  | .dxch k => Sys2Proof.Machine.execDxch k s
  | .ts k => Sys2Proof.Machine.execTs k s

end Sys2Proof.Machine
end

