-- ==== Sys2Proof/Machine/Step.lean ====
section
/-! DEFINITION. One step of the machine (40_execution_cycle.md R140). -/

namespace Sys2Proof.Machine

/-- One step: phase 1, timers, interrupt delivery (R140, R146). -/
def step (s : State) : Host.Outcome State Fault Refusal := cycle exec s

/-- The state with the word `w` stored where `step` fetches its next instruction. An instruction is
one 15-bit word (30_encoding.md R110), so `w`'s bits 14 to 0 are all of it. -/
def State.withFetchWord (s : State) (_nbits w : Nat) : State := placedForFetch s (BitVec.ofNat 15 w)

end Sys2Proof.Machine
end

