-- ==== Sys2Proof/Machine/Loader.lean ====
section
/-! DEFINITION. The image loader, the host's way to fill fixed memory before the run
(20_memory.md R90 to R93; 70_reset_and_hazards.md R263). No step uses it. -/

namespace Sys2Proof.Machine

/-- Why a launch is refused (R92). -/
inductive LoadError where
  /-- The stream holds more than 81,920 bytes. -/
  | overrun
  /-- The stream ends with one byte left over. -/
  | oddByte
deriving DecidableEq, Repr

/-- The loader between calls: how many words it stored, at most one leftover byte (R91), and the fixed
memory so far. -/
structure Loader where
  count : Nat
  leftover : Option Byte
  fixed : Memory
deriving DecidableEq, Repr

/-- The loader before its first call. -/
def Loader.start : Loader := ⟨0, none, []⟩

/-- The fixed bank that stream bank `j` fills: index order, or for yaagc F2, F3, F0, F1, F4, ...
(R90, R93). -/
def streamBank (format : Config.LoadFormat) (j : Nat) : Nat :=
  match format with
  | .yaagc => if j < 2 then j + 2 else if j < 4 then j - 2 else j
  | .native => j
  | .nativeShifted => j

/-- The stored word of a 16-bit stream word: `w & 077777`, or `(w >> 1) & 077777` for the left-aligned
formats (R90, R93). -/
def streamWord (format : Config.LoadFormat) (w : BitVec 16) : Word :=
  match format with
  | .native => w.setWidth 15
  | .yaagc => (w >>> 1).setWidth 15
  | .nativeShifted => (w >>> 1).setWidth 15

/-- Where word number `k` of the stream goes (R90, R93). -/
def streamLoc (format : Config.LoadFormat) (k : Nat) : Loc :=
  ⟨.fixed, streamBank format (k / 1024), k % 1024⟩

/-- One byte of the stream: the first of a pair is kept, the second completes a big-endian word, and a
byte past the 81,920th fails (R90 to R92). -/
def Loader.feedByte (format : Config.LoadFormat) (l : Loader) (b : Byte) : Except LoadError Loader :=
  if fixedWords ≤ l.count then .error .overrun
  else
    match l.leftover with
    | none => .ok { l with leftover := some b }
    | some hi =>
      .ok ⟨l.count + 1, none,
        l.fixed.writeWord (streamLoc format l.count).index (streamWord format (hi ++ b))⟩

/-- One call of the loader with a fragment of any length (R91). -/
def Loader.feed (format : Config.LoadFormat) (l : Loader) : List Byte → Except LoadError Loader
  | [] => .ok l
  | b :: bs =>
    match l.feedByte format b with
    | .error e => .error e
    | .ok l' => Loader.feed format l' bs

/-- All the calls of a load, in order (R91). -/
def Loader.feedAll (format : Config.LoadFormat) (l : Loader) : List (List Byte) → Except LoadError Loader
  | [] => .ok l
  | c :: cs =>
    match l.feed format c with
    | .error e => .error e
    | .ok l' => Loader.feedAll format l' cs

/-- The launch (R92, R263): load the image, refuse a failed load and an odd trailing byte, and reset
with the parameters. -/
def launch (p : Config.Params) (calls : List (List Byte)) : Except LoadError State :=
  match Loader.feedAll p.loadFormat .start calls with
  | .error e => .error e
  | .ok l =>
    match l.leftover with
    | some _ => .error .oddByte
    | none => .ok (State.resetWith p l.fixed)

end Sys2Proof.Machine
end

