-- ==== Sys2Proof/Machine/Pseudo.lean ====
section
/-! DEFINITION. Pseudo-addresses: validity, classes, decomposition, operands and iteration
(20_memory.md R60 to R69, R76). No step uses them; they are the view of memory the image layout and
the assembler use. -/

namespace Sys2Proof.Machine

/-- A pseudo-address: 16 bits, unsigned (R60). -/
abbrev PseudoAddr := BitVec 16

/-- Why a pseudo-address function fails (R64, R66 to R68; 93_implementation_defined.md U4). -/
inductive PseudoError where
  | invalid (p : PseudoAddr)
  | endOfErasable
  | endOfFixed
deriving DecidableEq, Repr

/-- `isValid` (R61). -/
def isValid (p : PseudoAddr) : Bool := p < 0x1800 || (0x2000 ≤ p && p < 0xB000)

/-- `isErasable` (R62). -/
def isErasable (p : PseudoAddr) : Bool := p < 0x0800

/-- `isFixed` (R62). -/
def isFixed (p : PseudoAddr) : Bool := isValid p && !isErasable p

/-- `isSuperBit` (R62). -/
def isSuperBit (p : PseudoAddr) : Bool := 0x9000 ≤ p && p < 0xB000

/-- `bank_and_offset(p)` (R63, R64); it fails on an invalid p (D33). -/
def bankAndOffset (p : PseudoAddr) : Except PseudoError Loc :=
  if isErasable p then .ok ⟨.erasable, p.toNat / 256, p.toNat % 256⟩
  else if isFixed p then
    .ok ⟨.fixed, if p < 0x1000 then p.toNat / 1024 else p.toNat / 1024 - 4, p.toNat % 1024⟩
  else .error (.invalid p)

/-- `pseudo(erasable, bank, offset)`, the inverse (R65). -/
def pseudo (l : Loc) : PseudoAddr :=
  match l.region with
  | .erasable => BitVec.ofNat 16 (l.bank * 256 + l.offset)
  | .fixed =>
    if l.bank = 2 ∨ l.bank = 3 then BitVec.ofNat 16 (l.bank * 1024 + l.offset)
    else BitVec.ofNat 16 (0x1000 + l.bank * 1024 + l.offset)

/-- The operand that reaches a location through its unswitched address, or else through its window
(R66). -/
def operandOf (l : Loc) : Addr :=
  match l.region with
  | .erasable => BitVec.ofNat 12 (if l.bank ≤ 2 then l.bank * 0o400 + l.offset else 0o1400 + l.offset)
  | .fixed =>
    BitVec.ofNat 12
      (if l.bank = 2 ∨ l.bank = 3 then l.bank * 0o2000 + l.offset else 0o2000 + l.offset)

/-- The operand that reaches a location through its window (R67). -/
def windowOf (l : Loc) : Addr :=
  match l.region with
  | .erasable => BitVec.ofNat 12 (0o1400 + l.offset)
  | .fixed => BitVec.ofNat 12 (0o2000 + l.offset)

/-- `as_operand(p)` (R66). -/
def asOperand (p : PseudoAddr) : Except PseudoError Addr :=
  match bankAndOffset p with
  | .error e => .error e
  | .ok l => .ok (operandOf l)

/-- `as_banked_operand(p)` (R67). -/
def asBankedOperand (p : PseudoAddr) : Except PseudoError Addr :=
  match bankAndOffset p with
  | .error e => .error e
  | .ok l => .ok (windowOf l)

/-- `next_valid(p)` (R68). -/
def nextValid (p : PseudoAddr) : Except PseudoError PseudoAddr :=
  if isValid p then
    if p + 1 = 0x0800 then .error .endOfErasable
    else if p + 1 = 0xB000 then .error .endOfFixed
    else if p + 1 = 0x1800 then .ok 0x2000
    else .ok (p + 1)
  else .error (.invalid p)

/-- A bank that only a window reaches (R69). -/
def isSwitchable (l : Loc) : Bool :=
  match l.region with
  | .erasable => 2 < l.bank
  | .fixed => l.bank != 2 && l.bank != 3

/-- `is_beginning_of_switchable_bank(p)` (R69); an invalid p begins none (log entry 16). -/
def isBeginningOfSwitchableBank (p : PseudoAddr) : Bool :=
  match bankAndOffset p with
  | .error _ => false
  | .ok l => l.offset == 0 && isSwitchable l

/-- `cpu_pseudo(a) = pseudo(decode(a))` for the bank registers of the state (R76). -/
def cpuPseudo (s : State) (a : Addr) : PseudoAddr := pseudo (locate s a.toNat)

end Sys2Proof.Machine
end

