-- ==== Sys2Proof/Machine/Toolchain.lean ====
section
/-! DEFINITION. The toolchain facts the spec keeps for the in-scope block: the NOOP expansion and the
operand classes (30_encoding.md R125, R126). The assembler itself is out of scope (00_scope.md R5) and
no step uses this file. -/

namespace Sys2Proof.Machine

/-- `NOOP` at a pseudo-address (R126): CA A in erasable, TCF to the next valid location in fixed; it
fails at the end of fixed memory and on an invalid location. -/
def noopWord (p : PseudoAddr) : Except PseudoError Word :=
  if isErasable p then .ok (encode (.ca 0))
  else
    match nextValid p with
    | .error e => .error e
    | .ok q =>
      match asOperand q with
      | .error e => .error e
      | .ok k => .ok (encode (.tcf k))

/-- `any_memory` (R125). -/
def anyMemory (v : Nat) : Bool := v ≤ 0o7777

/-- `double_any_memory` (R125). -/
def doubleAnyMemory (v : Nat) : Bool := v < 0o7777

/-- `double_any_memory` warns when the pair crosses a bank boundary (R125). -/
def doubleAnyMemoryWarns (v : Nat) : Bool := v == 0o1377 || v == 0o1777 || v == 0o3777

/-- `erasable` (R125). -/
def erasableClass (v : Nat) : Bool := v ≤ 0o1777

/-- `double_erasable` (R125). -/
def doubleErasable (v : Nat) : Bool := v < 0o1777

/-- `double_erasable` warns (R125). -/
def doubleErasableWarns (v : Nat) : Bool := v == 0o1377

/-- `channel` (R125). -/
def channelClass (v : Nat) : Bool := v ≤ 0o777

/-- `fixed` (R125). -/
def fixedClass (v : Nat) : Bool := 0o2000 ≤ v && v ≤ 0o7777

/-- `TC_operand`: `any_memory` without 3, 4 and 6 (R125). -/
def tcOperand (v : Nat) : Bool := anyMemory v && v != 3 && v != 4 && v != 6

/-- `INDEX_operand`: `erasable` without 017 (R125). -/
def indexOperand (v : Nat) : Bool := erasableClass v && v != 0o17

end Sys2Proof.Machine
end

