-- ==== Sys2Proof/Machine/Run.lean ====
section
/-! DEFINITION. Runs: the state each step leaves, the faulted state included (40_execution_cycle.md
R148 to R150; 60_exceptions.md R221, R249). -/

namespace Sys2Proof.Machine

/-- The state one step leaves: the next state, or the faulted state with its fault recorded (R221).
The faulted state is left as it is: no step follows (R148). -/
def settle (s : State) : State :=
  match s.fault with
  | some _ => s
  | none =>
    match step s with
    | .next t => t
    | .fault f => raise (reached exec s) f
    | .refused _ => s

/-- The state after a host-chosen number of steps, stopping at a fault (R150). -/
def runFuel : Nat → State → State
  | 0, s => s
  | n + 1, s => runFuel n (settle s)

end Sys2Proof.Machine
end

