-- ==== Sys2Proof/Safety.lean ====
section
/-! DEFINITION. The invariant of the machine's states, in the terms the statements use. -/

namespace Sys2Proof.Machine

/-- Every register holds what its write rule can store (10_state.md R22 to R30), and the container of
BB, which has no storage (R28), is 0. -/
abbrev State.RegsWf (s : State) : Prop :=
  slot s slotL &&& 0o77777 = slot s slotL ∧
  slot s slotEB &&& 0o3400 = slot s slotEB ∧
  slot s slotFB &&& 0o76000 = slot s slotFB ∧
  slot s slotZ &&& 0o7777 = slot s slotZ ∧
  slot s slotBB = 0 ∧
  slot s slotCYR &&& 0o77777 = slot s slotCYR

/-- Both storages are in canonical form and inside their 8 and 40 banks (R47). -/
abbrev State.MemWf (s : State) : Prop :=
  Memory.wf erasableWords s.erasable ∧ Memory.wf fixedWords s.fixed

/-- An accumulator between steps: below the interval, and not below the lowest offset (R42). -/
abbrev accOk (interval : Nat) (acc : Int) : Prop :=
  -((interval * 3 / 4 : Nat) : Int) ≤ acc ∧ acc < interval

/-- The timer accumulators between steps (R42). -/
abbrev State.TimersWf (s : State) : Prop :=
  accOk s.params.timerInterval s.timers.time1 ∧ accOk s.params.timerInterval s.timers.time3 ∧
  accOk s.params.timerInterval s.timers.time4 ∧ accOk s.params.timerInterval s.timers.time5

/-- What every state between steps meets: sensible parameters, registers within their masks,
canonical memories, a set of pending indices, and timers in range. -/
abbrev State.Inv (s : State) : Prop :=
  s.params.Valid ∧ s.RegsWf ∧ s.MemWf ∧ s.pending.Pairwise (· < ·) ∧ s.TimersWf

/-- What the sequence stack can hold between steps, and how long after the rollover that pushed it
(10_state.md R40, R41; 60_exceptions.md R240): the sequences of TIME1 and TIME3, pushed together, then
what is left of them, then the chained PINC TIME2, or the sequence of TIME4 or of TIME5 alone. -/
abbrev State.StackFollowsRollover (s : State) : Prop :=
  s.seqStack = [] ∨
  (s.seqStack = [.pincTime3, .pincTime1] ∧ s.timers.time1 ≤ 2) ∨
  (s.seqStack = [.pincTime1] ∧ s.timers.time1 ≤ 3) ∨
  (s.seqStack = [.pincTime2] ∧ s.timers.time1 ≤ 4) ∨
  (s.seqStack = [.pincTime4] ∧ 0 ≤ s.timers.time4 ∧ s.timers.time4 ≤ 2) ∨
  (s.seqStack = [.pincTime5] ∧ 0 ≤ s.timers.time5 ∧ s.timers.time5 ≤ 2)

/-- The timers keep the phases their offsets give them (R42): with the interval 893, TIME3 runs with
TIME1, TIME4 is 669 MCT behind it and TIME5 446, modulo the interval, and the stack is non-empty only
just after a rollover. -/
abbrev State.TimerPhases (s : State) : Prop :=
  s.params.timerInterval = 893 ∧ 0 ≤ s.timers.time1 ∧ s.timers.time1 < 893 ∧
  s.timers.time3 = s.timers.time1 ∧
  (s.timers.time4 = s.timers.time1 - 669 ∨
    (s.timers.time4 = s.timers.time1 + 224 ∧ s.timers.time1 < 669)) ∧
  (s.timers.time5 = s.timers.time1 - 446 ∨
    (s.timers.time5 = s.timers.time1 + 447 ∧ s.timers.time1 < 446)) ∧
  s.StackFollowsRollover

/-- A CPU address whose read does not fault: a register, or banked memory whose bank is in range
(20_memory.md R73, R74). -/
abbrev Readable (s : State) (a : Nat) : Prop :=
  a < regLimit ∨
  (a < cpuLimit ∧ ((locate s a).region = .fixed → (locate s a).bank < s.params.fixedBankLimit))

/-- Everything but registers and memory is as before. -/
abbrev SameControl (s t : State) : Prop :=
  t.sb = s.sb ∧ t.intsOff = s.intsOff ∧ t.pending = s.pending ∧ t.seqStack = s.seqStack ∧
  t.timers = s.timers ∧ t.mct = s.mct ∧ t.fault = s.fault ∧ t.params = s.params

/-- From `s` to `t` nothing changed but the registers at the addresses `regs` and the words of
erasable memory numbered in `words`: every other register reads as before, every byte outside those
words reads as before (byte `c` belongs to word `c / 2`), and fixed memory and the control state are
the same. -/
abbrev ChangedOnly (regs words : List Nat) (s t : State) : Prop :=
  (∀ a < regLimit, a ∉ regs → reg t a = reg s a) ∧
  (∀ c, c / 2 ∉ words → t.erasable.readByte c = s.erasable.readByte c) ∧
  t.fixed = s.fixed ∧ SameControl s t

end Sys2Proof.Machine
end

