-- ==== Sys2Proof/Certificates/Slice0/Obligations.lean ====
section
/-! DEFINITION. The statements for the provers, each a `def Obligations.<Name> : Prop`. Rule numbers
are those of spec/. A statement that rests on a choice of the model names its log entry. -/

open Sys2Proof
open Sys2Proof.Machine

/-! ### Encoding -/

/-- R128: for every instruction and every operand of its format's range, decoding its word gives it
back. Its rule is an inference the spec marks as its own (log entry 2). -/
def Obligations.DecodeOfEncodeIsTheInstruction : Prop :=
  ∀ i : Instr, i.wellFormed = true → decode (encode i) = .ok i

/-- R113: a word that decodes is the word its instruction encodes to, and the instruction is
well-formed. -/
def Obligations.EncodeOfDecodeIsTheWord : Prop :=
  ∀ (w : Word) (i : Instr), decode w = .ok i → encode i = w ∧ i.wellFormed = true

/-- R119: every word is one of the seven instructions, at the ranges of R118's table, or a decode
failure. The masks rest on the spec's decision D8 (log entry 2). -/
def Obligations.EveryWordIsOneOfSevenOrFails : Prop :=
  ∀ w : Word, decode w =
    if w = 0o3 then .ok .relint
    else if w = 0o4 then .ok .inhint
    else if 0o10000 ≤ w ∧ w ≤ 0o17777 then .ok (.tcf (w.setWidth 12))
    else if 0o30000 ≤ w ∧ w ≤ 0o37777 then .ok (.ca (w.setWidth 12))
    else if 0o40000 ≤ w ∧ w ≤ 0o47777 then .ok (.cs (w.setWidth 12))
    else if 0o52000 ≤ w ∧ w ≤ 0o53777 ∧ w.getLsbD 0 = true then
      .ok (.dxch ((w &&& 0o1776).setWidth 12))
    else if 0o54000 ≤ w ∧ w ≤ 0o55777 then .ok (.ts ((w &&& 0o1777).setWidth 12))
    else .error (.noEntry w)

/-- R116: no two decoder entries match the same word, so the smallest-mask rule never decides. Its
rule is an inference the spec marks as its own (log entry 2). -/
def Obligations.DecoderEntriesNeverOverlap : Prop :=
  ∀ w : Word, (decoderTable.filter (fun e => e.matchesWord w)).length ≤ 1

/-- R117: `DXCH K` with K odd decodes back to K - 1. Its rule is an inference the spec marks as its
own (log entry 2). -/
def Obligations.OddDxchOperandNamesThePairBelow : Prop :=
  ∀ k : Addr, fitsE10 k = true → k.toNat % 2 = 1 → decode (encode (.dxch k)) = .ok (.dxch (k - 1))

/-- R111, R114: words written out from the bit layouts decode to the instructions they stand for. -/
def Obligations.WrittenOutWordsDecode : Prop :=
  decode 0b000000000000011 = .ok .relint ∧ decode 0b000000000000100 = .ok .inhint ∧
  decode 0b001100011010001 = .ok (.tcf 0o4321) ∧ decode 0b011000001000000 = .ok (.ca 0o100) ∧
  decode 0b100100000000101 = .ok (.cs 0o4005) ∧ decode 0b101010010000001 = .ok (.dxch 0o200) ∧
  decode 0b101100001010011 = .ok (.ts 0o123) ∧ decode 0b000000000000110 = .error (.noEntry 6)

/-! ### Registers -/

/-- R22: what each slot holds after `set(a, v)`, that the BB view follows EB and FB, and that
nothing else changes. Rests on the spec's decisions D2, D3, D5 (log entry 2). -/
def Obligations.RegisterWritesFollowTheTable : Prop :=
  ∀ (s : State) (a : Nat) (v : Reg), a < 0o61 →
    reg (setReg s a v) a =
      (if a = 1 then v &&& 0o77777
       else if a = 3 then v &&& 0o3400
       else if a = 4 then v &&& 0o76000
       else if a = 5 then v &&& 0o7777
       else if a = 6 then (v &&& 0o76000) ||| (v &&& 7)
       else if a = 0o20 then ((v &&& 0o77777) >>> 1) ||| ((v &&& 1) <<< 14)
       else v) ∧
    (a = 6 → reg (setReg s a v) 4 = v &&& 0o76000 ∧ reg (setReg s a v) 3 = (v &&& 7) <<< 8) ∧
    reg (setReg s a v) 6 =
      (reg (setReg s a v) 4 &&& 0o76000) ||| ((reg (setReg s a v) 3 >>> 8) &&& 7) ∧
    ChangedOnly (if a = 6 then [6, 3, 4] else if a = 3 ∨ a = 4 then [a, 6] else [a]) []
      s (setReg s a v)

/-- R28: BB reads as `FB[14:10] << 10 | EB[10:8]`, writing EB or FB updates it, and writing it
reconstitutes them. The packing is the spec's decision D3, from general knowledge (log entries 2,
14). -/
def Obligations.BankMirrorIsConsistent : Prop :=
  ∀ (s : State) (v : Reg),
    reg s 6 = (reg s 4 &&& 0o76000) ||| ((reg s 3 >>> 8) &&& 7) ∧
    reg (setReg s 3 v) 6 = (reg s 4 &&& 0o76000) ||| ((v >>> 8) &&& 7) ∧
    reg (setReg s 4 v) 6 = (v &&& 0o76000) ||| ((reg s 3 >>> 8) &&& 7) ∧
    reg (setReg s 6 v) 4 = v &&& 0o76000 ∧ reg (setReg s 6 v) 3 = (v &&& 7) <<< 8 ∧
    reg (setReg s 6 v) 6 = (v &&& 0o76000) ||| (v &&& 7)

/-- R30: fifteen writes to CYR, the first of `v` and each later one of the value read, give back
bits 14 to 0 of `v`. Rests on the spec's decision D5 (log entry 2). -/
def Obligations.FifteenCyrWritesRestoreTheValue : Prop :=
  ∀ (s : State) (v : Reg),
    reg ((fun t => setReg t 0o20 (reg t 0o20))^[14] (setReg s 0o20 v)) 0o20 = v &&& 0o77777

/-- R34: `increment` adds one below the ceiling and wraps to 0 with overflow from it; at L the store
mask turns 077777 into 0 without overflow. The test `>=` is the spec's decision D14 (log entry 2),
the case of L is U7 (log entry 15). -/
def Obligations.IncrementWrapsAtTheCeiling : Prop :=
  (∀ (s : State) (r : Nat), Config.PlainSlot r →
    (increment s r).2 = decide (0x7FFF ≤ (reg s r).toNat) ∧
    (reg (increment s r).1 r).toNat =
      (if 0x7FFF ≤ (reg s r).toNat then 0 else (reg s r).toNat + 1) ∧
    ChangedOnly [r] [] s (increment s r).1) ∧
  (∀ s : State, (increment s 0).2 = decide (reg s 0 = 0xFFFF) ∧
    (reg (increment s 0).1 0).toNat = ((reg s 0).toNat + 1) % 0x10000) ∧
  (∀ s : State, reg s 1 = 0o77777 →
    (increment s 1).2 = false ∧ reg (increment s 1).1 1 = 0)

/-- R45: the overflow state is a function of A[15] and A[14]. -/
def Obligations.OverflowIsTheTwoTopBits : Prop :=
  ∀ a : Reg,
    (ovf a = .positive ↔ 0x4000 ≤ a ∧ a < 0x8000) ∧
    (ovf a = .negative ↔ 0x8000 ≤ a ∧ a < 0xC000) ∧
    (ovf a = .none ↔ a < 0x4000 ∨ 0xC000 ≤ a)

/-! ### Memory and addresses -/

/-- R75: a banked write fails `OutOfRange` above the address space and `Fixed` at every fixed
address, and an erasable word stores bits 14 to 0, reads back so, and changes no other byte. Rests
on the spec's decision D7 (log entry 2). That the record has no bank above the address space is log
entry 7, and the canonical form that the store keeps is log entry 3, both the model's choice. -/
def Obligations.BankedStoreIsReadBack : Prop :=
  ∀ (s : State) (a : Nat) (v : Reg),
    (0o10000 ≤ a → bankedWrite s a v = .error (.outOfRange a none)) ∧
    (0o2000 ≤ a → a < 0o10000 → bankedWrite s a v = .error (.fixed a)) ∧
    (a < 0o2000 → s.MemWf → ∃ t, bankedWrite s a v = .ok t ∧ bankedRead t a = .ok (v.setWidth 15) ∧
      ChangedOnly [] [(locate s a).index] s t ∧ t.MemWf)

/-- R74: a banked read fails on an address above the space and on a fixed bank at or above the limit,
and gives the stored word otherwise. That the record has no bank above the address space is the
model's choice (log entry 7). -/
def Obligations.BankedReadFailsOnlyOutOfRange : Prop :=
  ∀ (s : State) (a : Nat),
    (0o10000 ≤ a → bankedRead s a = .error (.outOfRange a none)) ∧
    (a < 0o10000 →
      bankedRead s a =
        if (locate s a).region = .fixed ∧ s.params.fixedBankLimit ≤ (locate s a).bank
        then .error (.outOfRange a (some (locate s a).bank)) else .ok (readLoc s (locate s a)))

/-- R72: the fixed window selects bank `fb`, plus 010 when `sb` and `fb ≥ 030`; fields 2 and 3 alias
the fixed-fixed banks, and with the super-bit banks 24 to 31 are out of the window's reach. -/
def Obligations.FixedWindowFollowsTheSuperBit : Prop :=
  ∀ (s : State) (o : Nat), o < 0o2000 →
    locate s (0o2000 + o) =
      ⟨.fixed, (if s.sb = true ∧ 0o30 ≤ (reg s 4).toNat / 0o2000 % 0o40
        then (reg s 4).toNat / 0o2000 % 0o40 + 0o10 else (reg s 4).toNat / 0o2000 % 0o40), o⟩ ∧
    ((reg s 4).toNat / 0o2000 % 0o40 = 2 → locate s (0o2000 + o) = locate s (0o4000 + o)) ∧
    ((reg s 4).toNat / 0o2000 % 0o40 = 3 → locate s (0o2000 + o) = locate s (0o6000 + o)) ∧
    (s.sb = true → ¬(24 ≤ (locate s (0o2000 + o)).bank ∧ (locate s (0o2000 + o)).bank ≤ 31)) ∧
    (s.sb = true → 0o30 ≤ (reg s 4).toNat / 0o2000 % 0o40 →
      32 ≤ (locate s (0o2000 + o)).bank ∧ (locate s (0o2000 + o)).bank ≤ 39)

/-- R82: the window address 01400 + k (k < 061) with eb = 0 reaches erasable bank 0 word k and not
register k, and those words are reached in no other way. Its rule is an inference the spec marks as
its own (log entry 2). -/
def Obligations.ShadowedWordsNeedTheWindow : Prop :=
  (∀ (s : State) (k : Nat), k < 0o61 → ebField s = 0 →
    memRead s (0o1400 + k) = .ok ((readLoc s ⟨.erasable, 0, k⟩).setWidth 16) ∧
    memRead s k = .ok (reg s k)) ∧
  (∀ (s : State) (a k : Nat), 0o61 ≤ a → k < 0o61 → locate s a = ⟨.erasable, 0, k⟩ →
    a = 0o1400 + k ∧ ebField s = 0)

/-- Log entry 3: two memories in canonical form that read the same at every word are the same data. -/
def Obligations.EqualReadsMeanEqualMemories : Prop :=
  ∀ (n : Nat) (m m' : Memory), Memory.wf n m → Memory.wf n m' →
    (∀ i < n, m.readWord i = m'.readWord i) → m = m'

/-- R65: `pseudo(bank_and_offset(p)) = p` for every valid p, with the bank and offset in range, and
`bank*bank_size + offset` is p exactly for erasable banks and fixed banks 2 and 3. Rests on the
spec's decisions D6, D33 (log entry 2). -/
def Obligations.PseudoInvertsBankAndOffset : Prop :=
  (∀ p : PseudoAddr, isValid p = true → ∃ l, bankAndOffset p = .ok l ∧ pseudo l = p ∧
    (l.region = .erasable → l.bank < 8 ∧ l.offset < 256 ∧ p.toNat = l.bank * 256 + l.offset) ∧
    (l.region = .fixed → l.bank < 40 ∧ l.offset < 1024 ∧
      p.toNat = (if l.bank = 2 ∨ l.bank = 3 then 0 else 0x1000) + l.bank * 1024 + l.offset) ∧
    (isSuperBit p = true ↔ l.region = .fixed ∧ 32 ≤ l.bank)) ∧
  (∀ p : PseudoAddr, isValid p = false → bankAndOffset p = .error (.invalid p)) ∧
  (∀ l : Loc, (l.region = .erasable → l.bank < 8 ∧ l.offset < 256) →
    (l.region = .fixed → l.bank < 40 ∧ l.offset < 1024) → bankAndOffset (pseudo l) = .ok l)

/-- R76: the pseudo-address of an unswitched CPU address is the address itself, and `as_operand` of
`cpu_pseudo` gives the address back outside the windows and in a window set to a switchable bank.
Its rule is an inference the spec marks as its own (log entry 2). -/
def Obligations.OperandsReachTheirPseudoAddress : Prop :=
  ∀ (s : State) (a : Addr),
    (a.toNat < 0o1400 ∨ 0o4000 ≤ a.toNat →
      (cpuPseudo s a).toNat = a.toNat ∧ asOperand (cpuPseudo s a) = .ok a) ∧
    (0o1400 ≤ a.toNat → a.toNat < 0o2000 → 2 < ebField s → asOperand (cpuPseudo s a) = .ok a) ∧
    (0o2000 ≤ a.toNat → a.toNat < 0o4000 →
      fbank (fbField s) s.sb ≠ 2 → fbank (fbField s) s.sb ≠ 3 → asOperand (cpuPseudo s a) = .ok a)

/-- R68: iteration fails at the end of erasable and of fixed memory and on an invalid p, and else
gives the least valid pseudo-address above p. Rests on the spec's decision D33 (log entry 2). -/
def Obligations.NextValidSkipsNothingValid : Prop :=
  (∀ p : PseudoAddr, isValid p = true →
    (nextValid p = .error .endOfErasable ↔ p = 0x07FF) ∧
    (nextValid p = .error .endOfFixed ↔ p = 0xAFFF) ∧
    (p ≠ 0x07FF → p ≠ 0xAFFF → ∃ q, nextValid p = .ok q ∧ isValid q = true ∧ p < q ∧
      ∀ r, p < r → r < q → isValid r = false)) ∧
  (∀ p : PseudoAddr, isValid p = false → nextValid p = .error (.invalid p))

/-! ### Instructions -/

/-- R160: RELINT is the word 000003, takes 1 MCT, and clears `intsOff` and nothing else. -/
def Obligations.RelintEnablesInterrupts : Prop :=
  decode 0o3 = .ok .relint ∧ timing .relint = 1 ∧
  ∀ s : State, exec .relint s = .next { s with intsOff := false }

/-- R161: INHINT is the word 000004, takes 1 MCT, and sets `intsOff` and nothing else. -/
def Obligations.InhintInhibitsInterrupts : Prop :=
  decode 0o4 = .ok .inhint ∧ timing .inhint = 1 ∧
  ∀ s : State, exec .inhint s = .next { s with intsOff := true }

/-- R170: TCF k, for every CPU address k, completes with Z = k and changes nothing else. -/
def Obligations.TcfJumpsAnywhere : Prop :=
  ∀ k : Addr, decode (0o10000 ||| k.setWidth 15) = .ok (.tcf k) ∧ timing (.tcf k) = 1 ∧
  ∀ s : State, ∃ t, exec (.tcf k) s = .next t ∧ reg t slotZ = k.setWidth 16 ∧
    ChangedOnly [slotZ] [] s t

/-- R114, R180, R183: CA k takes 2 MCT and, of a readable operand, completes with A the value read.
The write-back edits CYR again when k is CYR, and changes nothing else. Rests on the spec's
decisions D8, D10, D11 (log entry 2). -/
def Obligations.CaLoadsAndWritesBack : Prop :=
  ∀ k : Addr, decode (0o30000 ||| k.setWidth 15) = .ok (.ca k) ∧ timing (.ca k) = 2 ∧
  ∀ s : State, s.RegsWf → s.MemWf → Readable s k.toNat →
    ∃ v t, memRead s k.toNat = .ok v ∧ exec (.ca k) s = .next t ∧ reg t slotA = v ∧
      (k.toNat = slotCYR → reg t slotCYR = rotr15 v) ∧
      ChangedOnly (if k.toNat = slotCYR then [slotA, slotCYR] else [slotA]) [] s t

/-- R114, R182, R183: CS k takes 2 MCT and, of a readable operand, completes with A the 16-bit
complement of the value read, but for `CS 0`, which leaves A as it was. The write-back writes the
value read. Rests on the spec's decisions D8, D10, D11 (log entry 2). -/
def Obligations.CsLoadsTheComplement : Prop :=
  ∀ k : Addr, decode (0o40000 ||| k.setWidth 15) = .ok (.cs k) ∧ timing (.cs k) = 2 ∧
  ∀ s : State, s.RegsWf → s.MemWf → Readable s k.toNat →
    ∃ v t, memRead s k.toNat = .ok v ∧ exec (.cs k) s = .next t ∧
      reg t slotA = (if k.toNat = slotA then v else ~~~v) ∧
      (k.toNat = slotCYR → reg t slotCYR = rotr15 v) ∧
      ChangedOnly (if k.toNat = slotCYR then [slotA, slotCYR] else [slotA]) [] s t

/-- R181, R182: a word of memory is loaded without sign extension: after CA A[15] is 0 and a
negative word reads as positive overflow; after CS a positive word leaves no overflow and a negative
word leaves negative overflow. Rests on the spec's decisions D10, D11 (log entry 2). -/
def Obligations.LoadsNeverExtendTheSign : Prop :=
  ∀ (s : State) (k : Addr) (w : Word), 0o61 ≤ k.toNat → bankedRead s k.toNat = .ok w →
    (∃ t, exec (.ca k) s = .next t ∧ reg t slotA = w.setWidth 16 ∧
      ovf (reg t slotA) = if w.getLsbD 14 then .positive else .none) ∧
    (∃ t, exec (.cs k) s = .next t ∧ reg t slotA = ~~~(w.setWidth 16) ∧
      ovf (reg t slotA) = if w.getLsbD 14 then .negative else .none)

/-- R180, R182, R222: CA and CS fault exactly when the read of the operand is out of range, with
`OutOfRange` and the bank. Rests on the spec's decision D7 (log entry 2). -/
def Obligations.LoadsFaultOnlyOnBanksOutOfRange : Prop :=
  ∀ (s : State) (k : Addr),
    (¬Readable s k.toNat →
      exec (.ca k) s = .fault (.outOfRange k.toNat (some (locate s k.toNat).bank)) ∧
      exec (.cs k) s = .fault (.outOfRange k.toNat (some (locate s k.toNat).bank)) ∧
      0o2000 ≤ k.toNat ∧ s.params.fixedBankLimit ≤ (locate s k.toNat).bank) ∧
    (∀ f, exec (.ca k) s = .fault f ∨ exec (.cs k) s = .fault f → ¬Readable s k.toNat)

/-- R190: DXCH k of an even erasable k always completes: both reads, then the two memory writes in
address order, then A, then L. Rests on the spec's decision D12 (log entry 2). -/
def Obligations.DxchSwapsInTheSpecsOrder : Prop :=
  ∀ k : Addr, fitsD9 k = true →
    decode (0o52001 ||| k.setWidth 15) = .ok (.dxch k) ∧ timing (.dxch k) = 3 ∧
    ∀ s : State, ∃ m0 m1 s1 s2, memRead s k.toNat = .ok m0 ∧ memRead s (k.toNat + 1) = .ok m1 ∧
      memWrite s k.toNat (reg s slotA) = .ok s1 ∧ memWrite s1 (k.toNat + 1) (reg s slotL) = .ok s2 ∧
      exec (.dxch k) s = .next (setReg (setReg s2 slotA m0) slotL m1)

/-- R190, R191: DXCH of a pair of memory words swaps A with the first and L with the second, each
store keeping bits 14 to 0, and changes nothing else. Rests on the spec's decision D12 (log entry
2). -/
def Obligations.DxchSwapsAMemoryPair : Prop :=
  ∀ (s : State) (k : Addr), fitsD9 k = true → 0o61 ≤ k.toNat → s.MemWf →
    ∃ t, exec (.dxch k) s = .next t ∧
      reg t slotA = (readLoc s (locate s k.toNat)).setWidth 16 ∧
      reg t slotL = (readLoc s (locate s (k.toNat + 1))).setWidth 16 ∧
      readLoc t (locate s k.toNat) = (reg s slotA).setWidth 15 ∧
      readLoc t (locate s (k.toNat + 1)) = (reg s slotL).setWidth 15 ∧
      ChangedOnly [slotA, slotL]
        [(locate s k.toNat).index, (locate s (k.toNat + 1)).index] s t

/-- R191: DXCH of register pairs: A and L with themselves, Q and EB, FB and Z (a jump with a bank
change), BB and slot 07, CYR and slot 021, any other pair below 060, and the pair of register 060
and erasable word 061. Its rule is an inference the spec marks as its own (log entry 2). -/
def Obligations.DxchOfRegisterPairs : Prop :=
  ∀ s : State, s.RegsWf →
    exec (.dxch 0) s = .next s ∧
    (∃ t, exec (.dxch 2) s = .next t ∧ reg t slotQ = reg s slotA ∧
      reg t slotEB = reg s slotL &&& 0o3400 ∧ reg t slotA = reg s slotQ ∧ reg t slotL = reg s slotEB ∧
      ChangedOnly [slotA, slotL, slotQ, slotEB, slotBB] [] s t) ∧
    (∃ t, exec (.dxch 4) s = .next t ∧ reg t slotFB = reg s slotA &&& 0o76000 ∧
      reg t slotZ = reg s slotL &&& 0o7777 ∧ reg t slotA = reg s slotFB ∧ reg t slotL = reg s slotZ ∧
      ChangedOnly [slotA, slotL, slotFB, slotZ, slotBB] [] s t) ∧
    (∃ t, exec (.dxch 6) s = .next t ∧ reg t slotFB = reg s slotA &&& 0o76000 ∧
      reg t slotEB = (reg s slotA &&& 7) <<< 8 ∧ reg t 7 = reg s slotL ∧
      reg t slotA = reg s slotBB ∧ reg t slotL = reg s 7 &&& 0o77777 ∧
      ChangedOnly [slotA, slotL, slotFB, slotEB, slotBB, 7] [] s t) ∧
    (∃ t, exec (.dxch 0o20) s = .next t ∧ reg t slotCYR = rotr15 (reg s slotA) ∧
      reg t 0o21 = reg s slotL ∧ reg t slotA = reg s slotCYR ∧
      reg t slotL = reg s 0o21 &&& 0o77777 ∧
      ChangedOnly [slotA, slotL, slotCYR, 0o21] [] s t) ∧
    (∀ k : Addr, k.toNat % 2 = 0 → 0o10 ≤ k.toNat → k.toNat < 0o60 → k.toNat ≠ 0o20 →
      ∃ t, exec (.dxch k) s = .next t ∧ reg t k.toNat = reg s slotA ∧
        reg t (k.toNat + 1) = reg s slotL ∧ reg t slotA = reg s k.toNat ∧
        reg t slotL = reg s (k.toNat + 1) &&& 0o77777 ∧
        ChangedOnly [slotA, slotL, k.toNat, k.toNat + 1] [] s t) ∧
    (s.MemWf → ∃ t, exec (.dxch 0o60) s = .next t ∧ reg t 0o60 = reg s slotA ∧
      readLoc t ⟨.erasable, 0, 0o61⟩ = (reg s slotL).setWidth 15 ∧ reg t slotA = reg s 0o60 ∧
      reg t slotL = (readLoc s ⟨.erasable, 0, 0o61⟩).setWidth 16 ∧
      ChangedOnly [slotA, slotL, 0o60] [0o61] s t)

/-- R192: TS k of an erasable k always completes: the write, then on positive overflow A becomes +1
and Z advances, on negative overflow A becomes -1 and Z advances, otherwise no skip. -/
def Obligations.TsStoresThenSkipsOnOverflow : Prop :=
  ∀ k : Addr, fitsE10 k = true →
    decode (0o54000 ||| k.setWidth 15) = .ok (.ts k) ∧ timing (.ts k) = 2 ∧
    ∀ s : State, ∃ s1, memWrite s k.toNat (reg s slotA) = .ok s1 ∧
      exec (.ts k) s = .next
        (match ovf (reg s1 slotA) with
        | .positive => setZ (setReg s1 slotA 1) (reg s1 slotZ + 1)
        | .negative => setZ (setReg s1 slotA 0o177776) (reg s1 slotZ + 1)
        | .none => s1)

/-- R192, R193: TS to memory stores bits 14 to 0 of A in the operand's word and changes nothing
else, but on overflow A and Z. Its rule is an inference the spec marks as its own (log entry 2). -/
def Obligations.TsToMemoryChangesOneWord : Prop :=
  ∀ (s : State) (k : Addr), fitsE10 k = true → 0o61 ≤ k.toNat → s.MemWf →
    ∃ t, exec (.ts k) s = .next t ∧
      readLoc t (locate s k.toNat) = (reg s slotA).setWidth 15 ∧
      (ovf (reg s slotA) = .none →
        ChangedOnly [] [(locate s k.toNat).index] s t) ∧
      (ovf (reg s slotA) ≠ .none →
        reg t slotA = (if ovf (reg s slotA) = .positive then 1 else 0o177776) ∧
        reg t slotZ = (reg s slotZ + 1) &&& 0o7777 ∧
        ChangedOnly [slotA, slotZ] [(locate s k.toNat).index] s t)

/-- R193: TS to a register: the slot gets A through its write rule; `TS 5` jumps, and with overflow
lands one further; on overflow A becomes +1 or -1; nothing else changes but the BB mirror. Its rule
is an inference the spec marks as its own (log entry 2). -/
def Obligations.TsToRegisters : Prop :=
  ∀ (s : State) (k : Addr), k.toNat < 0o61 →
    ∃ t, exec (.ts k) s = .next t ∧
      (k.toNat ≠ slotA → k.toNat ≠ slotZ → reg t k.toNat = reg (setReg s k.toNat (reg s slotA)) k.toNat) ∧
      reg t slotA = (if ovf (reg s slotA) = .positive then 1
        else if ovf (reg s slotA) = .negative then 0o177776 else reg s slotA) ∧
      reg t slotZ =
        (if ovf (reg s slotA) = .none then
          (if k.toNat = slotZ then reg s slotA &&& 0o7777 else reg s slotZ)
         else
          ((if k.toNat = slotZ then reg s slotA &&& 0o7777 else reg s slotZ) + 1) &&& 0o7777) ∧
      ChangedOnly
        (slotA :: slotZ :: (if k.toNat = slotBB then [slotBB, slotEB, slotFB]
          else if k.toNat = slotEB ∨ k.toNat = slotFB then [k.toNat, slotBB] else [k.toNat])) [] s t

/-- R126: `NOOP` in erasable is `CA 0`, which changes nothing, and in fixed it is TCF to the next
valid location. -/
def Obligations.NoopChangesNothing : Prop :=
  (∀ s : State, exec (.ca 0) s = .next s) ∧
  (∀ p : PseudoAddr, isErasable p = true → noopWord p = .ok 0o30000) ∧
  (∀ (p q : PseudoAddr) (k : Addr), isFixed p = true → nextValid p = .ok q → asOperand q = .ok k →
    noopWord p = .ok (0o10000 ||| k.setWidth 15))

/-! ### The execution cycle -/

/-- R140: when no fault stands and no sequence is pending, and the word fetched at Z decodes to `i`,
the step is `exec i` on the state with Z advanced, followed by the timers and interrupt delivery. -/
def Obligations.StepRunsTheDecodedInstruction : Prop :=
  ∀ (s : State) (v : Reg) (i : Instr), s.fault = none → s.seqStack = [] →
    memRead s (reg s slotZ).toNat = .ok v → decode (v.setWidth 15) = .ok i →
    step s =
      match exec i (setZ s (reg s slotZ + 1)) with
      | .next t => finishStep (timing i) t
      | .fault f => .fault f
      | .refused r => .refused r

/-- R144, R147: with a sequence on the stack the step fetches nothing: it pops the top, runs it, puts
its child on top, and ends as an instruction's step does with 1 MCT. -/
def Obligations.StepRunsTheTopSequence : Prop :=
  ∀ (s : State) (q : SeqName) (rest : List SeqName), s.fault = none → s.seqStack = q :: rest →
    step s = finishStep 1
      (match executeSeq q { s with seqStack := rest } with
      | (t, none) => t
      | (t, some child) => { t with seqStack := child :: t.seqStack })

/-- R142, R220, R221: a word that decodes to nothing ends the run with `DecodeFailure`, the word and
its address; nothing but the fault record changes, and no step follows. That every other field stays
is the model's choice (log entry 6). -/
def Obligations.UndecodableWordEndsTheRun : Prop :=
  ∀ (s : State) (v : Reg) (e : DecodeError), s.fault = none → s.seqStack = [] →
    memRead s (reg s slotZ).toNat = .ok v → decode (v.setWidth 15) = .error e →
    step s = .fault (.decodeFailure (v.setWidth 15) (reg s slotZ).toNat) ∧
    settle s = { s with fault := some (.decodeFailure (v.setWidth 15) (reg s slotZ).toNat) } ∧
    ∀ n, runFuel n (settle s) = settle s

/-- R46, R221: a fault is never cleared: no step runs in a faulted state, and a state that a step
answers has no fault. That a step in a faulted state answers that same fault, and that `settle`
records it, is the model's choice (log entry 6). -/
def Obligations.FaultIsNeverCleared : Prop :=
  (∀ (s : State) (f : Fault) (n : Nat), s.fault = some f →
    step s = .fault f ∧ runFuel n s = s) ∧
  (∀ s t : State, step s = .next t → s.fault = none ∧ t.fault = none) ∧
  (∀ (s : State) (f : Fault), step s = .fault f → (settle s).fault = some f)

/-- R44, R145: every step adds the timing of what its phase 1 ran, 1 for a sequence and the
instruction's own count otherwise, 1 to 3 in all. Rests on the spec's decisions D15, D20 (log entry
2). -/
def Obligations.StepAddsItsTiming : Prop :=
  ∀ s t : State, step s = .next t →
    (∀ q rest, s.seqStack = q :: rest → t.mct = s.mct + 1) ∧
    (s.seqStack = [] → ∃ i, fetchInstr s = .ok i ∧ t.mct = s.mct + timing i) ∧
    s.mct + 1 ≤ t.mct ∧ t.mct ≤ s.mct + 3

/-! ### Sequences and timers -/

/-- R201: PINC TIME1 increments TIME1 (slot 025 by default), wraps from 077777 to 0, and chains PINC
TIME2 exactly then. Rests on the spec's decisions D1, D14 (log entry 2). -/
def Obligations.PincTime1CountsAndChains : Prop :=
  Config.defaults.addrTime1 = 0o25 ∧
  ∀ s : State, s.params.Valid → ∃ t,
    executeSeq .pincTime1 s =
      (t, if 0o77777 ≤ reg s s.params.addrTime1 then some .pincTime2 else none) ∧
    reg t s.params.addrTime1 =
      (if 0o77777 ≤ reg s s.params.addrTime1 then 0 else reg s s.params.addrTime1 + 1) ∧
    ChangedOnly [s.params.addrTime1] [] s t

/-- R202: PINC TIME2 increments TIME2 (slot 024 by default), wraps from 077777 to 0, and chains
nothing. Rests on the spec's decisions D1, D14 (log entry 2). -/
def Obligations.PincTime2OnlyCounts : Prop :=
  Config.defaults.addrTime2 = 0o24 ∧
  ∀ s : State, s.params.Valid → ∃ t, executeSeq .pincTime2 s = (t, none) ∧
    reg t s.params.addrTime2 =
      (if 0o77777 ≤ reg s s.params.addrTime2 then 0 else reg s s.params.addrTime2 + 1) ∧
    ChangedOnly [s.params.addrTime2] [] s t

/-- R203, R204, R205: PINC TIME3, TIME4 and TIME5 increment their cells and on overflow post T3RUPT
(3), T4RUPT (4) and T5RUPT (2), whatever `intsOff` is. Rests on the spec's decisions D1, D14, D18
(log entry 2). -/
def Obligations.PincTime3To5CountAndPost : Prop :=
  Config.defaults.addrTime3 = 0o26 ∧ Config.defaults.t3rupt = 3 ∧
  Config.defaults.addrTime4 = 0o27 ∧ Config.defaults.t4rupt = 4 ∧
  Config.defaults.addrTime5 = 0o30 ∧ Config.defaults.t5rupt = 2 ∧
  ∀ (s : State) (q : SeqName) (c i : Nat), s.params.Valid →
    (q, c, i) ∈ [(SeqName.pincTime3, s.params.addrTime3, s.params.t3rupt),
      (SeqName.pincTime4, s.params.addrTime4, s.params.t4rupt),
      (SeqName.pincTime5, s.params.addrTime5, s.params.t5rupt)] →
    ∃ t, executeSeq q s = (t, none) ∧
      reg t c = (if 0o77777 ≤ reg s c then 0 else reg s c + 1) ∧
      (∀ j, j ∈ t.pending ↔ j ∈ s.pending ∨ (0o77777 ≤ reg s c ∧ j = i)) ∧
      ChangedOnly [c] [] s { t with pending := s.pending }

/-- R144, R200: with a sequence on the stack the step ends what phase 1, `runSeq`, leaves, and phase 1
changes neither Z nor any register but the TIME cells, no memory, and not `intsOff`. With interrupts
off the whole step does so, and completes in 1 MCT. Rests on the spec's decision D15 (log entry
2), sensible parameters are log entry 13. -/
def Obligations.SequenceStepsLeaveZ : Prop :=
  ∀ (s : State) (q : SeqName) (rest : List SeqName), s.fault = none → s.seqStack = q :: rest →
    s.params.Valid →
    step s = finishStep 1 (runSeq q (popped s rest)) ∧
    reg (runSeq q (popped s rest)) slotZ = reg s slotZ ∧
    (∀ a < 0o61, a ∉ [s.params.addrTime1, s.params.addrTime2, s.params.addrTime3,
      s.params.addrTime4, s.params.addrTime5] → reg (runSeq q (popped s rest)) a = reg s a) ∧
    (runSeq q (popped s rest)).erasable = s.erasable ∧ (runSeq q (popped s rest)).fixed = s.fixed ∧
    (runSeq q (popped s rest)).intsOff = s.intsOff ∧
    (s.intsOff = true →
      ∃ t, step s = .next t ∧ reg t slotZ = reg s slotZ ∧ t.mct = s.mct + 1 ∧ t.intsOff = true ∧
        (∀ a < 0o61, a ∉ [s.params.addrTime1, s.params.addrTime2, s.params.addrTime3,
          s.params.addrTime4, s.params.addrTime5] → reg t a = reg s a) ∧
        t.erasable = s.erasable ∧ t.fixed = s.fixed)

/-- R240: each timer adds the step's timing, takes the interval off once when it is reached, and
then pushes its sequence, in the order TIME1, TIME3, TIME4, TIME5. Rests on the spec's decision D16
(log entry 2). -/
def Obligations.TimersAdvanceInOrder : Prop :=
  ∀ (s : State) (t : Nat),
    (advanceTimers s t).seqStack =
      (if (s.params.timerInterval : Int) ≤ s.timers.time5 + t then [.pincTime5] else []) ++
      (if (s.params.timerInterval : Int) ≤ s.timers.time4 + t then [.pincTime4] else []) ++
      (if (s.params.timerInterval : Int) ≤ s.timers.time3 + t then [.pincTime3] else []) ++
      (if (s.params.timerInterval : Int) ≤ s.timers.time1 + t then [.pincTime1] else []) ++
      s.seqStack ∧
    (∀ acc ∈ [(s.timers.time1, (advanceTimers s t).timers.time1),
        (s.timers.time3, (advanceTimers s t).timers.time3),
        (s.timers.time4, (advanceTimers s t).timers.time4),
        (s.timers.time5, (advanceTimers s t).timers.time5)],
      acc.2 = if (s.params.timerInterval : Int) ≤ acc.1 + t
        then acc.1 + t - s.params.timerInterval else acc.1 + t) ∧
    ChangedOnly [] [] s
      { advanceTimers s t with timers := s.timers, seqStack := s.seqStack }

/-- R240, R275: every timer counts step time alone: over a step its accumulator grows by the step's
MCT, less the interval exactly when the sum reaches it. Its rule is an inference the spec marks as its own (log entry
2). -/
def Obligations.TimersCountStepTime : Prop :=
  ∀ s t : State, step s = .next t →
    ∀ acc ∈ [(s.timers.time1, t.timers.time1), (s.timers.time3, t.timers.time3),
        (s.timers.time4, t.timers.time4), (s.timers.time5, t.timers.time5)],
      acc.2 = if (s.params.timerInterval : Int) ≤ acc.1 + ((t.mct : Int) - s.mct)
        then acc.1 + ((t.mct : Int) - s.mct) - s.params.timerInterval
        else acc.1 + ((t.mct : Int) - s.mct)

/-- R40, R41: in every run of a loaded image with the default parameters the sequence stack holds at
most five entries. Its rule is an inference the spec marks as its own (log entry 2). -/
def Obligations.StackHoldsAtMostFive : Prop :=
  ∀ (calls : List (List Byte)) (s : State) (n : Nat), launch Config.defaults calls = .ok s →
    (runFuel n s).seqStack.length ≤ 5

/-! ### Interrupts -/

/-- R232: interrupt entry saves Z in ZRUPT (015) and the word at Z in BRUPT (017), goes to 04000 +
4i, sets `intsOff`, clears the request, and changes nothing else; a read of BRUPT's word that fails
is a fault. The word is read after ZRUPT is written, which only a fetch from ZRUPT itself can tell.
Rests on the spec's decisions D1, D18, D35 (log entry 2). -/
def Obligations.InterruptEntrySavesAndVectors : Prop :=
  Config.defaults.addrZrupt = 0o15 ∧ Config.defaults.addrBrupt = 0o17 ∧
  ∀ (s : State) (i : Nat), s.params.Valid → s.RegsWf → i < 512 →
    (∀ w, memRead (setReg s s.params.addrZrupt (reg s slotZ)) (reg s slotZ).toNat = .ok w →
      ∃ t, deliver s i = .ok t ∧ reg t s.params.addrZrupt = reg s slotZ ∧
        reg t s.params.addrBrupt = w ∧ (reg t slotZ).toNat = 0o4000 + 4 * i ∧ t.intsOff = true ∧
        (∀ j, j ∈ t.pending ↔ j ∈ s.pending ∧ j ≠ i) ∧
        ChangedOnly [s.params.addrZrupt, s.params.addrBrupt, slotZ] [] s
          { t with intsOff := s.intsOff, pending := s.pending }) ∧
    (∀ f, memRead (setReg s s.params.addrZrupt (reg s slotZ)) (reg s slotZ).toNat = .error f →
      deliver s i = .error f) ∧
    ((reg s slotZ).toNat ≠ s.params.addrZrupt →
      memRead (setReg s s.params.addrZrupt (reg s slotZ)) (reg s slotZ).toNat =
        memRead s (reg s slotZ).toNat)

/-- R233, R234: phase 3 takes an interrupt exactly when one is pending and `intsOff` is false, the
lowest index, and at most one: afterwards `intsOff` is set. Rests on the spec's decision D19 (log
entry 2). -/
def Obligations.LowestPendingInterruptIsTaken : Prop :=
  ∀ s : State,
    (s.pending = [] ∨ s.intsOff = true → deliverInterrupt s = .ok s) ∧
    (s.pending ≠ [] → s.intsOff = false →
      ∃ i ∈ s.pending, (∀ j ∈ s.pending, i ≤ j) ∧ deliverInterrupt s = deliver s i ∧
        ∀ t, deliverInterrupt s = .ok t → t.intsOff = true ∧ deliverInterrupt t = .ok t)

/-- R160, R233: a pending interrupt is delivered in the very step in which RELINT runs. Rests on the
spec's decision D19 (log entry 2). -/
def Obligations.RelintDeliversInItsOwnStep : Prop :=
  ∀ (s : State) (i : Nat), s.fault = none → s.seqStack = [] → fetchInstr s = .ok .relint →
    i ∈ s.pending → (∀ j ∈ s.pending, i ≤ j) →
    step s = orFault (deliver (phase2 1 { setZ s (reg s slotZ + 1) with intsOff := false }) i)

/-- R161, R233: INHINT takes effect in its own step: whatever is pending is not delivered in it. Its
rule is an inference the spec marks as its own (log entry 2). -/
def Obligations.InhintHoldsPendingOff : Prop :=
  ∀ s : State, s.fault = none → s.seqStack = [] → fetchInstr s = .ok .inhint →
    ∃ t, step s = .next t ∧ t.intsOff = true ∧ t.pending = s.pending ∧ t.mct = s.mct + 1 ∧
      reg t slotZ = (reg s slotZ + 1) &&& 0o7777 ∧
      (∀ a < 0o61, a ≠ slotZ → reg t a = reg s a) ∧ t.erasable = s.erasable ∧ t.fixed = s.fixed

/-! ### Reset, the loader and the whole machine -/

/-- R260: the reset state, value by value. Rests on the spec's decisions D4, D17, D21, D22 (log
entry 2). -/
def Obligations.ResetIsTheSpecs : Prop :=
  (∀ a < 0o61, reg State.reset a = if a = slotZ then 0o4000 else 0) ∧
  State.reset.sb = false ∧ State.reset.intsOff = false ∧ State.reset.pending = [] ∧
  State.reset.seqStack = [] ∧ State.reset.timers = ⟨0, 0, -669, -446⟩ ∧ State.reset.mct = 0 ∧
  (∀ l, readLoc State.reset l = 0) ∧ State.reset.fault = none ∧
  (∀ (p : Config.Params) (image : Memory), (State.resetWith p image).fixed = image ∧
    (State.resetWith p image).sb = p.sbInit ∧
    reg (State.resetWith p image) slotZ = p.resetZ.setWidth 16)

/-- R10: the machine after reset runs with the default parameters, and they are the table's. Rests
on the spec's decisions D1, D4, D7, D17, D18, D21, D23 (log entry 2). -/
def Obligations.DefaultParametersAreTheTables : Prop :=
  State.reset.params =
    ⟨0o4000, false, 40, 893, .native, 2, 3, 4, 0o15, 0o17, 0o24, 0o25, 0o26, 0o27, 0o30, 0o31⟩

/-- The reset state meets the invariant. The invariant is the model's (log entries 3, 5, 11, 13). -/
def Obligations.InvHoldsAtReset : Prop := State.reset.Inv

/-- Every step keeps the invariant: register widths (R22 to R30), canonical memories inside their
banks (R47), a set of pending indices (R39), accumulators in range (R42). The invariant is the
model's (log entries 3, 5, 11, 13). -/
def Obligations.StepKeepsTheInvariant : Prop :=
  ∀ s t : State, s.Inv → step s = .next t → t.Inv

/-- R37, R47, R89: no step writes fixed memory, the super-bit or the parameters. Rests on the spec's
decision D4 (log entry 2). -/
def Obligations.StepsNeverWriteFixedMemory : Prop :=
  ∀ s t : State, step s = .next t →
    t.fixed = s.fixed ∧ t.sb = s.sb ∧ t.params = s.params

/-- R222: which faults each part of a step can raise. From a state within its register masks and
with sensible parameters, a step faults only with `DecodeFailure` at Z, or, when the limit is below
40, with `OutOfRange` on a fixed-window bank at or above it; with the default limit only with
`DecodeFailure`. RELINT, INHINT, TCF, DXCH and TS never fault, and no step is refused. The table is
the spec's inference (log entry 2), sensible parameters are log entry 13. -/
def Obligations.OnlyTheseFaultsCanHappen : Prop :=
  ∀ s : State, s.RegsWf → s.params.Valid → s.fault = none →
    (∀ r, step s ≠ .refused r) ∧
    (∀ f, step s = .fault f →
      (∃ w, f = .decodeFailure w (reg s slotZ).toNat ∧ s.seqStack = []) ∨
      (∃ a b, f = .outOfRange a (some b) ∧ 0o2000 ≤ a ∧ a < 0o4000 ∧
        s.params.fixedBankLimit ≤ b ∧ b < 40)) ∧
    (s.params.fixedBankLimit = 40 → ∀ f, step s = .fault f →
      ∃ w, f = .decodeFailure w (reg s slotZ).toNat) ∧
    (∀ (i : Instr) (f : Fault), i.wellFormed = true → exec i s = .fault f →
      ∃ k, (i = .ca k ∨ i = .cs k) ∧ 0o2000 ≤ k.toNat ∧ k.toNat < 0o4000)

/-- R90, R91, R92, R93: the launch, however its bytes are split into calls, refuses more than 81,920
bytes and an odd trailing byte; otherwise the machine is reset with word k of the stream,
big-endian, at its place, and 0 in the words the stream does not reach. Rests on the spec's decision
D23 (log entries 2, 17). -/
def Obligations.LaunchPlacesTheImage : Prop :=
  ∀ (p : Config.Params) (calls : List (List Byte)),
    (81920 < calls.flatten.length → launch p calls = .error .overrun) ∧
    (calls.flatten.length ≤ 81920 → calls.flatten.length % 2 = 1 →
      launch p calls = .error .oddByte) ∧
    (calls.flatten.length ≤ 81920 → calls.flatten.length % 2 = 0 →
      ∃ s, launch p calls = .ok s ∧ s = State.resetWith p s.fixed ∧
        ∀ k < 40960, readLoc s
          ⟨.fixed, (match p.loadFormat with
            | .yaagc => [2, 3, 0, 1].getD (k / 1024) (k / 1024)
            | _ => k / 1024), k % 1024⟩ =
          (match p.loadFormat with
          | .native => (calls.flatten.getD (2 * k) 0 ++ calls.flatten.getD (2 * k + 1) 0).setWidth 15
          | _ => ((calls.flatten.getD (2 * k) 0 ++ calls.flatten.getD (2 * k + 1) 0) >>> 1).setWidth 15))

/-- A launched machine meets the invariant (log entries 3, 13), and with the interval 893 the timer
phases. Rests on the spec's decision D17 (log entry 2). -/
def Obligations.LaunchedMachineMeetsTheInvariant : Prop :=
  ∀ (p : Config.Params) (calls : List (List Byte)) (s : State), launch p calls = .ok s →
    (p.Valid → s.Inv) ∧ (p.timerInterval = 893 → s.TimerPhases)

/-- R40, R41, R42, R240: every step keeps the timer phases, with the stack non-empty only just
after a rollover, and in phase the stack holds at most two entries, so never more than R40's five.
R40's bound is an inference the spec marks as its own, the order and the offsets of the timers are
its decisions D16, D17 (log entry 2). -/
def Obligations.StepKeepsTheTimerPhases : Prop :=
  (∀ s t : State, s.TimerPhases → step s = .next t → t.TimerPhases) ∧
  (∀ s : State, s.TimerPhases → s.seqStack.length ≤ 2)
end

