-- ==== Sys2Proof/Laws/Memory.lean ====
section
/-! SUPPORT. The memory operations: a read after a write, what a write leaves alone, and the canonical
form that every write keeps. -/

namespace Sys2Proof.Machine

@[simp] theorem Memory.readByte_nil (a : Nat) : Memory.readByte [] a = Memory.unlisted := rfl

theorem Memory.readByte_cons (b : Nat) (v : Byte) (m : Memory) (a : Nat) :
    Memory.readByte ((b, v) :: m) a = if b = a then v else Memory.readByte m a := rfl

/-- A write leaves every other byte alone, whatever the list. -/
theorem Memory.readByte_writeByte_other (m : Memory) (a c : Nat) (v : Byte) (h : c ≠ a) :
    (m.writeByte a v).readByte c = m.readByte c := by
  induction m with
  | nil => unfold Memory.writeByte; split <;> simp [Memory.readByte_cons, Ne.symm h]
  | cons e m ih =>
    obtain ⟨b, w⟩ := e
    unfold Memory.writeByte
    have h' : ¬b = c ∨ b ≠ a := by omega
    split_ifs with h1 h2 h3 h4 <;> simp_all [Memory.readByte_cons, Ne.symm h]

/-- An address below every listed one is unlisted. -/
theorem Memory.readByte_below (m : Memory) (a : Nat) (h : ∀ c ∈ m, a < c.1) :
    m.readByte a = Memory.unlisted := by
  induction m with
  | nil => rfl
  | cons e m ih =>
    obtain ⟨b, w⟩ := e
    have hb : a < b := h (b, w) (by simp)
    rw [Memory.readByte_cons, if_neg (by omega)]
    exact ih (fun c hc => h c (by simp [hc]))

/-- A byte written to a rising list is read back. -/
theorem Memory.readByte_writeByte_same (m : Memory) (a : Nat) (v : Byte)
    (h : m.Pairwise (fun c d => c.1 < d.1)) : (m.writeByte a v).readByte a = v := by
  induction m with
  | nil => unfold Memory.writeByte; split <;> simp_all [Memory.readByte_cons]
  | cons e m ih =>
    obtain ⟨b, w⟩ := e
    rw [List.pairwise_cons] at h
    have above : a ≤ b → ∀ c ∈ m, a < c.1 := fun hab c hc => lt_of_le_of_lt hab (h.1 c hc)
    unfold Memory.writeByte
    split_ifs with h1 h2 h3 h4
    · rw [Memory.readByte_cons, if_neg (by omega), Memory.readByte_below m a (above h1.le), h2]
    · simp [Memory.readByte_cons]
    · rw [Memory.readByte_below m a (above h3.le), h4]
    · simp [Memory.readByte_cons]
    · rw [Memory.readByte_cons, if_neg (by omega), ih h.2]

/-- Every entry after a write is the written one or an old one. -/
theorem Memory.mem_writeByte (m : Memory) (a : Nat) (v : Byte) (c : Host.Cell)
    (hc : c ∈ m.writeByte a v) : (c = (a, v) ∧ v ≠ Memory.unlisted) ∨ c ∈ m := by
  induction m with
  | nil => unfold Memory.writeByte at hc; split at hc <;> simp_all
  | cons e m ih =>
    obtain ⟨b, w⟩ := e
    unfold Memory.writeByte at hc
    split_ifs at hc with h1 h2 h3 h4 <;> simp only [List.mem_cons] at hc ⊢ <;> tauto

/-- A write keeps the addresses strictly rising. -/
theorem Memory.writeByte_rising (m : Memory) (a : Nat) (v : Byte)
    (h : m.Pairwise (fun c d => c.1 < d.1)) : (m.writeByte a v).Pairwise (fun c d => c.1 < d.1) := by
  induction m with
  | nil => unfold Memory.writeByte; split <;> simp
  | cons e m ih =>
    obtain ⟨b, w⟩ := e
    have hm := List.pairwise_cons.mp h
    unfold Memory.writeByte
    split_ifs with h1 h2 h3 h4
    · exact h
    · refine List.pairwise_cons.mpr ⟨fun c hc => ?_, h⟩
      rcases List.mem_cons.mp hc with rfl | hc
      · exact h1
      · exact lt_trans h1 (hm.1 c hc)
    · exact hm.2
    · exact List.pairwise_cons.mpr ⟨fun c hc => h3 ▸ hm.1 c hc, hm.2⟩
    · refine List.pairwise_cons.mpr ⟨fun c hc => ?_, ih hm.2⟩
      rcases Memory.mem_writeByte m a v c hc with ⟨rfl, -⟩ | hc
      · show b < a; omega
      · exact hm.1 c hc

/-- A byte write inside the storage, with a clear top bit at an even address, keeps the canonical
form. -/
theorem Memory.writeByte_wf (words : Nat) (m : Memory) (a : Nat) (v : Byte) (h : m.wf words)
    (ha : a < 2 * words) (hv : a % 2 = 0 → v < 0x80) : (m.writeByte a v).wf words := by
  refine ⟨Memory.writeByte_rising m a v h.1, fun c hc => ?_⟩
  rcases Memory.mem_writeByte m a v c hc with ⟨rfl, hne⟩ | hc
  · exact ⟨hne, ha, hv⟩
  · exact h.2 c hc

/-- The high byte of a 15-bit word has a clear top bit. -/
theorem highByte_lt (w : Word) : (w >>> 8).setWidth 8 < (0x80 : Byte) := by
  have h : ((w >>> 8).setWidth 8).toNat < 128 := by
    simp only [BitVec.toNat_setWidth, BitVec.toNat_ushiftRight, Nat.shiftRight_eq_div_pow]
    have := w.isLt
    omega
  exact h

/-- Storing a word inside the storage keeps the canonical form. -/
theorem Memory.writeWord_wf (words : Nat) (m : Memory) (i : Nat) (w : Word) (h : m.wf words)
    (hi : i < words) : (m.writeWord i w).wf words :=
  Memory.writeByte_wf words _ _ _
    (Memory.writeByte_wf words m _ _ h (by omega) (fun _ => highByte_lt w)) (by omega) (by omega)

/-- The two bytes of a word make it up again. -/
theorem bytes_join (w : Word) :
    (((w >>> 8).setWidth 8 : Byte) ++ (w.setWidth 8 : Byte)).setWidth 15 = w := by
  apply BitVec.eq_of_getLsbD_eq
  intro i hi
  simp only [BitVec.getLsbD_setWidth, BitVec.getLsbD_append, BitVec.getLsbD_ushiftRight, hi,
    decide_true, Bool.true_and]
  by_cases h : i < 8
  · simp [h]
  · have h7 : i - 8 < 8 := by omega
    simp [h, h7, show 8 + (i - 8) = i by omega]

/-- A word stored in a rising list is read back. -/
theorem Memory.readWord_writeWord_same (m : Memory) (i : Nat) (w : Word)
    (h : m.Pairwise (fun c d => c.1 < d.1)) : (m.writeWord i w).readWord i = w := by
  unfold Memory.readWord Memory.writeWord
  rw [Memory.readByte_writeByte_other _ _ _ _ (by omega), Memory.readByte_writeByte_same _ _ _ h,
    Memory.readByte_writeByte_same _ _ _ (Memory.writeByte_rising _ _ _ h), bytes_join]

/-- Storing word `i` leaves every byte outside its pair alone. -/
theorem Memory.readByte_writeWord_other (m : Memory) (i c : Nat) (w : Word) (h : c / 2 ≠ i) :
    (m.writeWord i w).readByte c = m.readByte c := by
  unfold Memory.writeWord
  rw [Memory.readByte_writeByte_other _ _ _ _ (by omega),
    Memory.readByte_writeByte_other _ _ _ _ (by omega)]

/-- Storing a word leaves every other word alone. -/
theorem Memory.readWord_writeWord_other (m : Memory) (i j : Nat) (w : Word) (h : j ≠ i) :
    (m.writeWord i w).readWord j = m.readWord j := by
  unfold Memory.readWord
  rw [Memory.readByte_writeWord_other _ _ _ _ (by omega),
    Memory.readByte_writeWord_other _ _ _ _ (by omega)]

/-- The canonical form holds of the empty memory. -/
theorem Memory.wf_nil (words : Nat) : Memory.wf words [] := by simp [Memory.wf]

end Sys2Proof.Machine
end

