-- ==== Sys2Proof/Laws/State.lean ====
section
/-! SUPPORT. One lemma per field per update of State: what each update leaves, and what it writes. -/

namespace Sys2Proof.Machine

/-! ### putSlot -/

@[simp] theorem putSlot_regs (s : State) (a : Nat) (v : Reg) : (putSlot s a v).regs = s.regs.setIfInBounds a v := rfl
@[simp] theorem putSlot_sb (s : State) (a : Nat) (v : Reg) :
    (putSlot s a v).sb = s.sb := rfl
@[simp] theorem putSlot_intsOff (s : State) (a : Nat) (v : Reg) :
    (putSlot s a v).intsOff = s.intsOff := rfl
@[simp] theorem putSlot_pending (s : State) (a : Nat) (v : Reg) :
    (putSlot s a v).pending = s.pending := rfl
@[simp] theorem putSlot_seqStack (s : State) (a : Nat) (v : Reg) :
    (putSlot s a v).seqStack = s.seqStack := rfl
@[simp] theorem putSlot_timers (s : State) (a : Nat) (v : Reg) :
    (putSlot s a v).timers = s.timers := rfl
@[simp] theorem putSlot_mct (s : State) (a : Nat) (v : Reg) :
    (putSlot s a v).mct = s.mct := rfl
@[simp] theorem putSlot_erasable (s : State) (a : Nat) (v : Reg) :
    (putSlot s a v).erasable = s.erasable := rfl
@[simp] theorem putSlot_fixed (s : State) (a : Nat) (v : Reg) :
    (putSlot s a v).fixed = s.fixed := rfl
@[simp] theorem putSlot_fault (s : State) (a : Nat) (v : Reg) :
    (putSlot s a v).fault = s.fault := rfl
@[simp] theorem putSlot_params (s : State) (a : Nat) (v : Reg) :
    (putSlot s a v).params = s.params := rfl

/-! ### setReg -/

@[simp] theorem setReg_sb (s : State) (a : Nat) (v : Reg) :
    (setReg s a v).sb = s.sb := by unfold setReg; split <;> rfl
@[simp] theorem setReg_intsOff (s : State) (a : Nat) (v : Reg) :
    (setReg s a v).intsOff = s.intsOff := by unfold setReg; split <;> rfl
@[simp] theorem setReg_pending (s : State) (a : Nat) (v : Reg) :
    (setReg s a v).pending = s.pending := by unfold setReg; split <;> rfl
@[simp] theorem setReg_seqStack (s : State) (a : Nat) (v : Reg) :
    (setReg s a v).seqStack = s.seqStack := by unfold setReg; split <;> rfl
@[simp] theorem setReg_timers (s : State) (a : Nat) (v : Reg) :
    (setReg s a v).timers = s.timers := by unfold setReg; split <;> rfl
@[simp] theorem setReg_mct (s : State) (a : Nat) (v : Reg) :
    (setReg s a v).mct = s.mct := by unfold setReg; split <;> rfl
@[simp] theorem setReg_erasable (s : State) (a : Nat) (v : Reg) :
    (setReg s a v).erasable = s.erasable := by unfold setReg; split <;> rfl
@[simp] theorem setReg_fixed (s : State) (a : Nat) (v : Reg) :
    (setReg s a v).fixed = s.fixed := by unfold setReg; split <;> rfl
@[simp] theorem setReg_fault (s : State) (a : Nat) (v : Reg) :
    (setReg s a v).fault = s.fault := by unfold setReg; split <;> rfl
@[simp] theorem setReg_params (s : State) (a : Nat) (v : Reg) :
    (setReg s a v).params = s.params := by unfold setReg; split <;> rfl

/-! ### setZ -/

@[simp] theorem setZ_sb (s : State) (v : Reg) :
    (setZ s v).sb = s.sb := by simp [setZ]
@[simp] theorem setZ_intsOff (s : State) (v : Reg) :
    (setZ s v).intsOff = s.intsOff := by simp [setZ]
@[simp] theorem setZ_pending (s : State) (v : Reg) :
    (setZ s v).pending = s.pending := by simp [setZ]
@[simp] theorem setZ_seqStack (s : State) (v : Reg) :
    (setZ s v).seqStack = s.seqStack := by simp [setZ]
@[simp] theorem setZ_timers (s : State) (v : Reg) :
    (setZ s v).timers = s.timers := by simp [setZ]
@[simp] theorem setZ_mct (s : State) (v : Reg) :
    (setZ s v).mct = s.mct := by simp [setZ]
@[simp] theorem setZ_erasable (s : State) (v : Reg) :
    (setZ s v).erasable = s.erasable := by simp [setZ]
@[simp] theorem setZ_fixed (s : State) (v : Reg) :
    (setZ s v).fixed = s.fixed := by simp [setZ]
@[simp] theorem setZ_fault (s : State) (v : Reg) :
    (setZ s v).fault = s.fault := by simp [setZ]
@[simp] theorem setZ_params (s : State) (v : Reg) :
    (setZ s v).params = s.params := by simp [setZ]

/-! ### advanceZ -/

@[simp] theorem advanceZ_sb (s : State) :
    (advanceZ s).sb = s.sb := by simp [advanceZ]
@[simp] theorem advanceZ_intsOff (s : State) :
    (advanceZ s).intsOff = s.intsOff := by simp [advanceZ]
@[simp] theorem advanceZ_pending (s : State) :
    (advanceZ s).pending = s.pending := by simp [advanceZ]
@[simp] theorem advanceZ_seqStack (s : State) :
    (advanceZ s).seqStack = s.seqStack := by simp [advanceZ]
@[simp] theorem advanceZ_timers (s : State) :
    (advanceZ s).timers = s.timers := by simp [advanceZ]
@[simp] theorem advanceZ_mct (s : State) :
    (advanceZ s).mct = s.mct := by simp [advanceZ]
@[simp] theorem advanceZ_erasable (s : State) :
    (advanceZ s).erasable = s.erasable := by simp [advanceZ]
@[simp] theorem advanceZ_fixed (s : State) :
    (advanceZ s).fixed = s.fixed := by simp [advanceZ]
@[simp] theorem advanceZ_fault (s : State) :
    (advanceZ s).fault = s.fault := by simp [advanceZ]
@[simp] theorem advanceZ_params (s : State) :
    (advanceZ s).params = s.params := by simp [advanceZ]

/-! ### saveZ -/

@[simp] theorem saveZ_sb (s : State) :
    (saveZ s).sb = s.sb := by simp [saveZ]
@[simp] theorem saveZ_intsOff (s : State) :
    (saveZ s).intsOff = s.intsOff := by simp [saveZ]
@[simp] theorem saveZ_pending (s : State) :
    (saveZ s).pending = s.pending := by simp [saveZ]
@[simp] theorem saveZ_seqStack (s : State) :
    (saveZ s).seqStack = s.seqStack := by simp [saveZ]
@[simp] theorem saveZ_timers (s : State) :
    (saveZ s).timers = s.timers := by simp [saveZ]
@[simp] theorem saveZ_mct (s : State) :
    (saveZ s).mct = s.mct := by simp [saveZ]
@[simp] theorem saveZ_erasable (s : State) :
    (saveZ s).erasable = s.erasable := by simp [saveZ]
@[simp] theorem saveZ_fixed (s : State) :
    (saveZ s).fixed = s.fixed := by simp [saveZ]
@[simp] theorem saveZ_fault (s : State) :
    (saveZ s).fault = s.fault := by simp [saveZ]
@[simp] theorem saveZ_params (s : State) :
    (saveZ s).params = s.params := by simp [saveZ]

/-! ### storeErasable -/

@[simp] theorem storeErasable_regs (s : State) (l : Loc) (w : Word) :
    (storeErasable s l w).regs = s.regs := rfl
@[simp] theorem storeErasable_sb (s : State) (l : Loc) (w : Word) :
    (storeErasable s l w).sb = s.sb := rfl
@[simp] theorem storeErasable_intsOff (s : State) (l : Loc) (w : Word) :
    (storeErasable s l w).intsOff = s.intsOff := rfl
@[simp] theorem storeErasable_pending (s : State) (l : Loc) (w : Word) :
    (storeErasable s l w).pending = s.pending := rfl
@[simp] theorem storeErasable_seqStack (s : State) (l : Loc) (w : Word) :
    (storeErasable s l w).seqStack = s.seqStack := rfl
@[simp] theorem storeErasable_timers (s : State) (l : Loc) (w : Word) :
    (storeErasable s l w).timers = s.timers := rfl
@[simp] theorem storeErasable_mct (s : State) (l : Loc) (w : Word) :
    (storeErasable s l w).mct = s.mct := rfl
@[simp] theorem storeErasable_erasable (s : State) (l : Loc) (w : Word) : (storeErasable s l w).erasable = s.erasable.writeWord l.index w := rfl
@[simp] theorem storeErasable_fixed (s : State) (l : Loc) (w : Word) :
    (storeErasable s l w).fixed = s.fixed := rfl
@[simp] theorem storeErasable_fault (s : State) (l : Loc) (w : Word) :
    (storeErasable s l w).fault = s.fault := rfl
@[simp] theorem storeErasable_params (s : State) (l : Loc) (w : Word) :
    (storeErasable s l w).params = s.params := rfl

/-! ### post -/

@[simp] theorem post_regs (s : State) (i : Nat) :
    (post s i).regs = s.regs := rfl
@[simp] theorem post_sb (s : State) (i : Nat) :
    (post s i).sb = s.sb := rfl
@[simp] theorem post_intsOff (s : State) (i : Nat) :
    (post s i).intsOff = s.intsOff := rfl
@[simp] theorem post_pending (s : State) (i : Nat) : (post s i).pending = insertIndex i s.pending := rfl
@[simp] theorem post_seqStack (s : State) (i : Nat) :
    (post s i).seqStack = s.seqStack := rfl
@[simp] theorem post_timers (s : State) (i : Nat) :
    (post s i).timers = s.timers := rfl
@[simp] theorem post_mct (s : State) (i : Nat) :
    (post s i).mct = s.mct := rfl
@[simp] theorem post_erasable (s : State) (i : Nat) :
    (post s i).erasable = s.erasable := rfl
@[simp] theorem post_fixed (s : State) (i : Nat) :
    (post s i).fixed = s.fixed := rfl
@[simp] theorem post_fault (s : State) (i : Nat) :
    (post s i).fault = s.fault := rfl
@[simp] theorem post_params (s : State) (i : Nat) :
    (post s i).params = s.params := rfl

/-! ### push -/

@[simp] theorem push_regs (s : State) (q : SeqName) :
    (push s q).regs = s.regs := rfl
@[simp] theorem push_sb (s : State) (q : SeqName) :
    (push s q).sb = s.sb := rfl
@[simp] theorem push_intsOff (s : State) (q : SeqName) :
    (push s q).intsOff = s.intsOff := rfl
@[simp] theorem push_pending (s : State) (q : SeqName) :
    (push s q).pending = s.pending := rfl
@[simp] theorem push_seqStack (s : State) (q : SeqName) : (push s q).seqStack = q :: s.seqStack := rfl
@[simp] theorem push_timers (s : State) (q : SeqName) :
    (push s q).timers = s.timers := rfl
@[simp] theorem push_mct (s : State) (q : SeqName) :
    (push s q).mct = s.mct := rfl
@[simp] theorem push_erasable (s : State) (q : SeqName) :
    (push s q).erasable = s.erasable := rfl
@[simp] theorem push_fixed (s : State) (q : SeqName) :
    (push s q).fixed = s.fixed := rfl
@[simp] theorem push_fault (s : State) (q : SeqName) :
    (push s q).fault = s.fault := rfl
@[simp] theorem push_params (s : State) (q : SeqName) :
    (push s q).params = s.params := rfl

/-! ### pushIf -/

@[simp] theorem pushIf_regs (b : Bool) (q : SeqName) (s : State) :
    (pushIf b q s).regs = s.regs := by unfold pushIf; split <;> rfl
@[simp] theorem pushIf_sb (b : Bool) (q : SeqName) (s : State) :
    (pushIf b q s).sb = s.sb := by unfold pushIf; split <;> rfl
@[simp] theorem pushIf_intsOff (b : Bool) (q : SeqName) (s : State) :
    (pushIf b q s).intsOff = s.intsOff := by unfold pushIf; split <;> rfl
@[simp] theorem pushIf_pending (b : Bool) (q : SeqName) (s : State) :
    (pushIf b q s).pending = s.pending := by unfold pushIf; split <;> rfl
@[simp] theorem pushIf_timers (b : Bool) (q : SeqName) (s : State) :
    (pushIf b q s).timers = s.timers := by unfold pushIf; split <;> rfl
@[simp] theorem pushIf_mct (b : Bool) (q : SeqName) (s : State) :
    (pushIf b q s).mct = s.mct := by unfold pushIf; split <;> rfl
@[simp] theorem pushIf_erasable (b : Bool) (q : SeqName) (s : State) :
    (pushIf b q s).erasable = s.erasable := by unfold pushIf; split <;> rfl
@[simp] theorem pushIf_fixed (b : Bool) (q : SeqName) (s : State) :
    (pushIf b q s).fixed = s.fixed := by unfold pushIf; split <;> rfl
@[simp] theorem pushIf_fault (b : Bool) (q : SeqName) (s : State) :
    (pushIf b q s).fault = s.fault := by unfold pushIf; split <;> rfl
@[simp] theorem pushIf_params (b : Bool) (q : SeqName) (s : State) :
    (pushIf b q s).params = s.params := by unfold pushIf; split <;> rfl

/-! ### popped -/

@[simp] theorem popped_regs (s : State) (r : List SeqName) :
    (popped s r).regs = s.regs := rfl
@[simp] theorem popped_sb (s : State) (r : List SeqName) :
    (popped s r).sb = s.sb := rfl
@[simp] theorem popped_intsOff (s : State) (r : List SeqName) :
    (popped s r).intsOff = s.intsOff := rfl
@[simp] theorem popped_pending (s : State) (r : List SeqName) :
    (popped s r).pending = s.pending := rfl
@[simp] theorem popped_seqStack (s : State) (r : List SeqName) : (popped s r).seqStack = r := rfl
@[simp] theorem popped_timers (s : State) (r : List SeqName) :
    (popped s r).timers = s.timers := rfl
@[simp] theorem popped_mct (s : State) (r : List SeqName) :
    (popped s r).mct = s.mct := rfl
@[simp] theorem popped_erasable (s : State) (r : List SeqName) :
    (popped s r).erasable = s.erasable := rfl
@[simp] theorem popped_fixed (s : State) (r : List SeqName) :
    (popped s r).fixed = s.fixed := rfl
@[simp] theorem popped_fault (s : State) (r : List SeqName) :
    (popped s r).fault = s.fault := rfl
@[simp] theorem popped_params (s : State) (r : List SeqName) :
    (popped s r).params = s.params := rfl

/-! ### raise -/

@[simp] theorem raise_regs (s : State) (f : Fault) :
    (raise s f).regs = s.regs := rfl
@[simp] theorem raise_sb (s : State) (f : Fault) :
    (raise s f).sb = s.sb := rfl
@[simp] theorem raise_intsOff (s : State) (f : Fault) :
    (raise s f).intsOff = s.intsOff := rfl
@[simp] theorem raise_pending (s : State) (f : Fault) :
    (raise s f).pending = s.pending := rfl
@[simp] theorem raise_seqStack (s : State) (f : Fault) :
    (raise s f).seqStack = s.seqStack := rfl
@[simp] theorem raise_timers (s : State) (f : Fault) :
    (raise s f).timers = s.timers := rfl
@[simp] theorem raise_mct (s : State) (f : Fault) :
    (raise s f).mct = s.mct := rfl
@[simp] theorem raise_erasable (s : State) (f : Fault) :
    (raise s f).erasable = s.erasable := rfl
@[simp] theorem raise_fixed (s : State) (f : Fault) :
    (raise s f).fixed = s.fixed := rfl
@[simp] theorem raise_fault (s : State) (f : Fault) : (raise s f).fault = some f := rfl
@[simp] theorem raise_params (s : State) (f : Fault) :
    (raise s f).params = s.params := rfl

/-! ### advanceTimers -/

@[simp] theorem advanceTimers_regs (s : State) (t : Nat) :
    (advanceTimers s t).regs = s.regs := by simp [advanceTimers]
@[simp] theorem advanceTimers_sb (s : State) (t : Nat) :
    (advanceTimers s t).sb = s.sb := by simp [advanceTimers]
@[simp] theorem advanceTimers_intsOff (s : State) (t : Nat) :
    (advanceTimers s t).intsOff = s.intsOff := by simp [advanceTimers]
@[simp] theorem advanceTimers_pending (s : State) (t : Nat) :
    (advanceTimers s t).pending = s.pending := by simp [advanceTimers]
@[simp] theorem advanceTimers_mct (s : State) (t : Nat) :
    (advanceTimers s t).mct = s.mct := by simp [advanceTimers]
@[simp] theorem advanceTimers_erasable (s : State) (t : Nat) :
    (advanceTimers s t).erasable = s.erasable := by simp [advanceTimers]
@[simp] theorem advanceTimers_fixed (s : State) (t : Nat) :
    (advanceTimers s t).fixed = s.fixed := by simp [advanceTimers]
@[simp] theorem advanceTimers_fault (s : State) (t : Nat) :
    (advanceTimers s t).fault = s.fault := by simp [advanceTimers]
@[simp] theorem advanceTimers_params (s : State) (t : Nat) :
    (advanceTimers s t).params = s.params := by simp [advanceTimers]

/-! ### phase2 -/

@[simp] theorem phase2_regs (t : Nat) (s : State) :
    (phase2 t s).regs = s.regs := by simp [phase2]
@[simp] theorem phase2_sb (t : Nat) (s : State) :
    (phase2 t s).sb = s.sb := by simp [phase2]
@[simp] theorem phase2_intsOff (t : Nat) (s : State) :
    (phase2 t s).intsOff = s.intsOff := by simp [phase2]
@[simp] theorem phase2_pending (t : Nat) (s : State) :
    (phase2 t s).pending = s.pending := by simp [phase2]
@[simp] theorem phase2_erasable (t : Nat) (s : State) :
    (phase2 t s).erasable = s.erasable := by simp [phase2]
@[simp] theorem phase2_fixed (t : Nat) (s : State) :
    (phase2 t s).fixed = s.fixed := by simp [phase2]
@[simp] theorem phase2_fault (t : Nat) (s : State) :
    (phase2 t s).fault = s.fault := by simp [phase2]
@[simp] theorem phase2_params (t : Nat) (s : State) :
    (phase2 t s).params = s.params := by simp [phase2]

@[simp] theorem phase2_mct (t : Nat) (s : State) : (phase2 t s).mct = s.mct + t := by simp [phase2]

@[simp] theorem pushIf_seqStack (b : Bool) (q : SeqName) (s : State) :
    (pushIf b q s).seqStack = if b then q :: s.seqStack else s.seqStack := by
  unfold pushIf; split <;> rfl

/-! ### increment -/

@[simp] theorem increment_sb (s : State) (r : Nat) :
    (increment s r).1.sb = s.sb := by unfold increment; split <;> simp
@[simp] theorem increment_intsOff (s : State) (r : Nat) :
    (increment s r).1.intsOff = s.intsOff := by unfold increment; split <;> simp
@[simp] theorem increment_pending (s : State) (r : Nat) :
    (increment s r).1.pending = s.pending := by unfold increment; split <;> simp
@[simp] theorem increment_seqStack (s : State) (r : Nat) :
    (increment s r).1.seqStack = s.seqStack := by unfold increment; split <;> simp
@[simp] theorem increment_timers (s : State) (r : Nat) :
    (increment s r).1.timers = s.timers := by unfold increment; split <;> simp
@[simp] theorem increment_mct (s : State) (r : Nat) :
    (increment s r).1.mct = s.mct := by unfold increment; split <;> simp
@[simp] theorem increment_erasable (s : State) (r : Nat) :
    (increment s r).1.erasable = s.erasable := by unfold increment; split <;> simp
@[simp] theorem increment_fixed (s : State) (r : Nat) :
    (increment s r).1.fixed = s.fixed := by unfold increment; split <;> simp
@[simp] theorem increment_fault (s : State) (r : Nat) :
    (increment s r).1.fault = s.fault := by unfold increment; split <;> simp
@[simp] theorem increment_params (s : State) (r : Nat) :
    (increment s r).1.params = s.params := by unfold increment; split <;> simp

end Sys2Proof.Machine
end

