-- ==== Sys2Proof/Laws/Registers.lean ====
section
/-! SUPPORT. The register file: a read after a write, what a write leaves alone, the bit identities of
the editing slots, and the widths every write keeps. -/

namespace Sys2Proof.Machine

/-! ### Slots -/

theorem slot_congr (s t : State) (h : t.regs = s.regs) (a : Nat) : slot t a = slot s a := by
  unfold slot; rw [h]

theorem reg_congr (s t : State) (h : t.regs = s.regs) (a : Nat) : reg t a = reg s a := by
  unfold reg; rw [slot_congr s t h, slot_congr s t h, slot_congr s t h]

theorem slot_putSlot_same (s : State) (a : Nat) (v : Reg) (h : a < 49) :
    slot (putSlot s a v) a = v := by
  simp [slot, h]

theorem slot_putSlot_other (s : State) (a b : Nat) (v : Reg) (h : b ≠ a) :
    slot (putSlot s a v) b = slot s b := by
  simp [slot, Ne.symm h]

/-- Storing what a slot holds changes nothing. -/
theorem putSlot_self (s : State) (a : Nat) : putSlot s a (slot s a) = s := by
  have h : s.regs.setIfInBounds a (slot s a) = s.regs := by
    ext i hi
    simp only [slot, Vector.getElem_setIfInBounds]
    split_ifs with h <;> simp_all
  unfold putSlot; rw [h]

/-! ### Registers -/

/-- Which slots a write to slot `a` can change: itself, and through the BB mirror EB, FB and BB
(10_state.md R26 to R28). -/
abbrev Touches (a b : Nat) : Prop :=
  b = a ∨ (a = slotBB ∧ (b = slotEB ∨ b = slotFB)) ∨ (b = slotBB ∧ (a = slotEB ∨ a = slotFB))

theorem reg_eq_slot (s : State) (a : Nat) (h : a ≠ slotBB) : reg s a = slot s a := by
  unfold reg; rw [if_neg h]

theorem reg_bb (s : State) : reg s slotBB = bbView (slot s slotFB) (slot s slotEB) := rfl

theorem setReg_eq_putSlot (s : State) (a : Nat) (v : Reg) (h : a ≠ slotBB) :
    setReg s a v = putSlot s a (storedValue a v) := by
  unfold setReg; rw [if_neg h]

theorem setReg_bb (s : State) (v : Reg) :
    setReg s slotBB v =
      putSlot (putSlot s slotFB (storedValue slotFB v)) slotEB (storedValue slotEB (ebOfBB v)) := rfl

theorem reg_setReg_same (s : State) (a : Nat) (v : Reg) (h : a < 49) (hb : a ≠ slotBB) :
    reg (setReg s a v) a = storedValue a v := by
  rw [reg_eq_slot _ _ hb, setReg_eq_putSlot _ _ _ hb, slot_putSlot_same _ _ _ h]

/-- The slots after a write. -/
theorem slot_setReg_other (s : State) (a b : Nat) (v : Reg) (h : ¬Touches a b) :
    slot (setReg s a v) b = slot s b := by
  have hn : b ≠ a := fun e => h (.inl e)
  unfold setReg
  split_ifs with hb
  · have h3 : b ≠ slotEB := fun e => h (.inr (.inl ⟨hb, .inl e⟩))
    have h4 : b ≠ slotFB := fun e => h (.inr (.inl ⟨hb, .inr e⟩))
    rw [slot_putSlot_other _ _ _ _ h3, slot_putSlot_other _ _ _ _ h4]
  · rw [slot_putSlot_other _ _ _ _ hn]

/-- A write leaves every register alone that it does not touch. -/
theorem reg_setReg_other (s : State) (a b : Nat) (v : Reg) (h : ¬Touches a b) :
    reg (setReg s a v) b = reg s b := by
  by_cases hb : b = slotBB
  · subst hb
    have h3 : ¬Touches a slotEB := by
      rintro (e | ⟨e, -⟩ | ⟨e, -⟩)
      · exact h (.inr (.inr ⟨rfl, .inl e.symm⟩))
      · exact h (.inl e.symm)
      · exact absurd e (by decide)
    have h4 : ¬Touches a slotFB := by
      rintro (e | ⟨e, -⟩ | ⟨e, -⟩)
      · exact h (.inr (.inr ⟨rfl, .inr e.symm⟩))
      · exact h (.inl e.symm)
      · exact absurd e (by decide)
    rw [reg_bb, reg_bb, slot_setReg_other _ _ _ _ h3, slot_setReg_other _ _ _ _ h4]
  · rw [reg_eq_slot _ _ hb, reg_eq_slot _ _ hb, slot_setReg_other _ _ _ _ h]

theorem reg_setReg_bb_fb (s : State) (v : Reg) : reg (setReg s slotBB v) slotFB = v &&& 0o76000 := by
  rw [reg_eq_slot _ _ (by decide), setReg_bb, slot_putSlot_other _ _ _ _ (by decide),
    slot_putSlot_same _ _ _ (by decide)]
  rfl

theorem reg_setReg_bb_eb (s : State) (v : Reg) :
    reg (setReg s slotBB v) slotEB = storedValue slotEB (ebOfBB v) := by
  rw [reg_eq_slot _ _ (by decide), setReg_bb, slot_putSlot_same _ _ _ (by decide)]

/-- Z after a write to Z. -/
theorem reg_setZ (s : State) (v : Reg) : reg (setZ s v) slotZ = v &&& 0o7777 :=
  reg_setReg_same s slotZ v (by decide) (by decide)

theorem reg_setZ_other (s : State) (v : Reg) (b : Nat) (h : b ≠ slotZ) :
    reg (setZ s v) b = reg s b :=
  reg_setReg_other s slotZ b v (by simp [Touches]; exact h)

/-! ### Bit identities -/

theorem and_mask_idem (v m : Reg) : (v &&& m) &&& m = v &&& m := by
  rw [BitVec.and_assoc, BitVec.and_self]

theorem rotr15_masked (v : Reg) : rotr15 v &&& 0o77777 = rotr15 v := by
  unfold rotr15
  apply BitVec.eq_of_getLsbD_eq
  intro i hi
  interval_cases i <;> simp

/-- What a BB write gives EB: bits 2 to 0 of the value, in place (R28). -/
theorem storedValue_ebOfBB (v : Reg) : storedValue slotEB (ebOfBB v) = ebOfBB v := by
  show ebOfBB v &&& 0o3400 = ebOfBB v
  unfold ebOfBB
  apply BitVec.eq_of_getLsbD_eq
  intro i hi
  interval_cases i <;> simp

theorem bbView_fb (fb eb : Reg) (h : fb &&& 0o76000 = fb) : bbView fb eb &&& 0o76000 = fb := by
  rw [← h]
  unfold bbView
  apply BitVec.eq_of_getLsbD_eq
  intro i hi
  interval_cases i <;> simp

theorem bbView_eb (fb eb : Reg) (h : eb &&& 0o3400 = eb) : ebOfBB (bbView fb eb) = eb := by
  rw [← h]
  unfold ebOfBB bbView
  apply BitVec.eq_of_getLsbD_eq
  intro i hi
  interval_cases i <;> simp

theorem bbView_written (v : Reg) :
    bbView (v &&& 0o76000) (ebOfBB v) = (v &&& 0o76000) ||| (v &&& 7) := by
  unfold ebOfBB bbView
  apply BitVec.eq_of_getLsbD_eq
  intro i hi
  interval_cases i <;> simp

/-! ### Widths -/

/-- Writing any register keeps every register within its mask. -/
theorem regsWf_setReg (s : State) (a : Nat) (v : Reg) (h : s.RegsWf) : (setReg s a v).RegsWf := by
  obtain ⟨h1, h3, h4, h5, h6, h16⟩ := h
  have key : ∀ b : Nat, b < 49 → (b ≠ slotBB) → a = b →
      slot (setReg s a v) b = storedValue b v := by
    intro b hb hbb hab
    subst hab
    rw [setReg_eq_putSlot _ _ _ hbb, slot_putSlot_same _ _ _ hb]
  refine ⟨?_, ?_, ?_, ?_, ?_, ?_⟩
  · by_cases e : a = slotL
    · rw [key slotL (by decide) (by decide) e]; exact and_mask_idem v _
    · rwa [slot_setReg_other _ _ _ _ (by simp [Touches]; omega)]
  · by_cases e : a = slotEB
    · rw [key slotEB (by decide) (by decide) e]; exact and_mask_idem v _
    · by_cases e6 : a = slotBB
      · subst e6
        rw [setReg_bb, slot_putSlot_same _ _ _ (by decide)]
        exact and_mask_idem _ _
      · rwa [slot_setReg_other _ _ _ _ (by simp [Touches]; omega)]
  · by_cases e : a = slotFB
    · rw [key slotFB (by decide) (by decide) e]; exact and_mask_idem v _
    · by_cases e6 : a = slotBB
      · subst e6
        rw [setReg_bb, slot_putSlot_other _ _ _ _ (by decide), slot_putSlot_same _ _ _ (by decide)]
        exact and_mask_idem _ _
      · rwa [slot_setReg_other _ _ _ _ (by simp [Touches]; omega)]
  · by_cases e : a = slotZ
    · rw [key slotZ (by decide) (by decide) e]; exact and_mask_idem v _
    · rwa [slot_setReg_other _ _ _ _ (by simp [Touches]; omega)]
  · by_cases e6 : a = slotBB
    · subst e6
      rwa [setReg_bb, slot_putSlot_other _ _ _ _ (by decide), slot_putSlot_other _ _ _ _ (by decide)]
    · rw [setReg_eq_putSlot _ _ _ e6, slot_putSlot_other _ _ _ _ (Ne.symm e6)]; exact h6
  · by_cases e : a = slotCYR
    · rw [key slotCYR (by decide) (by decide) e]; exact rotr15_masked v
    · rwa [slot_setReg_other _ _ _ _ (by simp [Touches]; omega)]

theorem regsWf_congr (s t : State) (h : t.regs = s.regs) (hs : s.RegsWf) : t.RegsWf := by
  simpa only [State.RegsWf, slot_congr s t h] using hs

/-- Z names a CPU address when the registers are within their masks. -/
theorem zAddr_lt (s : State) (h : s.RegsWf) : zAddr s < cpuLimit := by
  have hz := h.2.2.2.1
  unfold zAddr
  rw [reg_eq_slot _ _ (by decide), ← hz, BitVec.toNat_and]
  exact lt_of_le_of_lt Nat.and_le_right (by decide)

/-- Writing back what a register reads as changes nothing, but for CYR (43_load.md R183). -/
theorem setReg_reg_self (s : State) (a : Nat) (h : s.RegsWf) (ha : a ≠ slotCYR) :
    setReg s a (reg s a) = s := by
  obtain ⟨h1, h3, h4, h5, h6, h16⟩ := h
  by_cases e6 : a = slotBB
  · subst e6
    rw [reg_bb, setReg_bb, storedValue_ebOfBB, bbView_eb _ _ h3]
    have e : storedValue slotFB (bbView (slot s slotFB) (slot s slotEB)) = slot s slotFB :=
      bbView_fb _ _ h4
    rw [e, putSlot_self, putSlot_self]
  · rw [reg_eq_slot _ _ e6, setReg_eq_putSlot _ _ _ e6]
    have e : storedValue a (slot s a) = slot s a := by
      unfold storedValue
      split_ifs <;> simp_all
    rw [e, putSlot_self]

end Sys2Proof.Machine
end

