-- ==== Sys2Proof/Laws/Ops.lean ====
section
/-! SUPPORT. What each shared operation can do, said once: reads and writes of the redirected address
space, interrupt entry, the timers, the end of a step, and the step itself. -/

namespace Sys2Proof.Machine

/-! ### Locations -/

theorem ebField_lt (s : State) : ebField s < 8 := by unfold ebField; exact BitVec.isLt _

theorem fbField_lt (s : State) : fbField s < 32 := by unfold fbField; exact BitVec.isLt _

theorem fbank_lt (fb : Nat) (sb : Bool) (h : fb < 32) : fbank fb sb < 40 := by
  unfold fbank; split_ifs <;> omega

/-- CPU addresses below 02000 reach erasable memory, inside its 8 banks of 256 words. -/
theorem locate_erasable (s : State) (a : Nat) (h : a < 0o2000) :
    (locate s a).region = .erasable ∧ (locate s a).bank < 8 ∧ (locate s a).offset < 256 := by
  have := ebField_lt s
  unfold locate
  split_ifs <;> simp <;> omega

/-- CPU addresses from 02000 reach fixed memory, inside its 40 banks of 1024 words. -/
theorem locate_fixed (s : State) (a : Nat) (h : 0o2000 ≤ a) (h' : a < cpuLimit) :
    (locate s a).region = .fixed ∧ (locate s a).bank < 40 ∧ (locate s a).offset < 1024 := by
  have h1 := fbank_lt _ s.sb (fbField_lt s)
  simp only [cpuLimit] at h'
  unfold locate
  split_ifs <;> (try omega) <;> simp <;> omega

theorem index_erasable_lt (s : State) (a : Nat) (h : a < 0o2000) :
    (locate s a).index < erasableWords := by
  obtain ⟨h1, h2, h3⟩ := locate_erasable s a h
  simp only [Loc.index, h1, erasableWords]
  omega

/-! ### The redirected address space -/

theorem memRead_register (s : State) (a : Nat) (h : a < regLimit) : memRead s a = .ok (reg s a) := by
  unfold memRead; rw [if_pos h]

theorem memRead_banked (s : State) (a : Nat) (h : regLimit ≤ a) (h' : a < cpuLimit)
    (hb : (locate s a).region = .fixed → (locate s a).bank < s.params.fixedBankLimit) :
    memRead s a = .ok ((readLoc s (locate s a)).setWidth 16) := by
  have hn : ¬((locate s a).region = .fixed ∧ s.params.fixedBankLimit ≤ (locate s a).bank) :=
    fun ⟨h1, h2⟩ => absurd (hb h1) (by omega)
  unfold memRead bankedRead
  rw [if_neg (by omega), if_neg (by omega)]
  simp only [if_neg hn]

/-- A readable address answers a value. -/
theorem memRead_readable (s : State) (a : Nat) (h : Readable s a) : ∃ v, memRead s a = .ok v := by
  by_cases ha : a < regLimit
  · exact ⟨_, memRead_register s a ha⟩
  · rcases h with h | ⟨h1, h2⟩
    · exact absurd h ha
    · exact ⟨_, memRead_banked s a (by omega) h1 h2⟩

/-- A read faults only with `OutOfRange`, on an address or a bank that does not exist. -/
theorem memRead_error (s : State) (a : Nat) (f : Fault) (h : memRead s a = .error f) :
    (cpuLimit ≤ a ∧ f = .outOfRange a none) ∨
    (a < cpuLimit ∧ (locate s a).region = .fixed ∧ s.params.fixedBankLimit ≤ (locate s a).bank ∧
      f = .outOfRange a (some (locate s a).bank)) := by
  unfold memRead bankedRead at h
  split_ifs at h with h1 h2
  · simp only [Except.error.injEq] at h
    exact .inl ⟨h2, h.symm⟩
  · by_cases h3 : (locate s a).region = .fixed ∧ s.params.fixedBankLimit ≤ (locate s a).bank
    · simp only [if_pos h3, Except.error.injEq] at h
      exact .inr ⟨by omega, h3.1, h3.2, h.symm⟩
    · simp [if_neg h3] at h

theorem memWrite_register (s : State) (a : Nat) (v : Reg) (h : a < regLimit) :
    memWrite s a v = .ok (setReg s a v) := by
  unfold memWrite; rw [if_pos h]

theorem memWrite_erasable (s : State) (a : Nat) (v : Reg) (h : regLimit ≤ a) (h' : a < 0o2000) :
    memWrite s a v = .ok (storeErasable s (locate s a) (v.setWidth 15)) := by
  unfold memWrite bankedWrite
  rw [if_neg (by omega), if_neg (by simp only [cpuLimit]; omega)]
  simp [(locate_erasable s a h').1]

/-- A write below 02000 always completes. -/
theorem memWrite_completes (s : State) (a : Nat) (v : Reg) (h : a < 0o2000) :
    ∃ t, memWrite s a v = .ok t := by
  by_cases ha : a < regLimit
  · exact ⟨_, memWrite_register s a v ha⟩
  · exact ⟨_, memWrite_erasable s a v (by omega) h⟩

/-- What a completed write did: a register write, or one word of erasable memory. -/
theorem memWrite_ok (s t : State) (a : Nat) (v : Reg) (h : memWrite s a v = .ok t) :
    (a < regLimit ∧ t = setReg s a v) ∨
    (regLimit ≤ a ∧ a < 0o2000 ∧ t = storeErasable s (locate s a) (v.setWidth 15)) := by
  by_cases ha : a < regLimit
  · rw [memWrite_register s a v ha] at h
    exact .inl ⟨ha, (Except.ok.inj h).symm⟩
  · by_cases hb : a < 0o2000
    · rw [memWrite_erasable s a v (by omega) hb] at h
      exact .inr ⟨by omega, hb, (Except.ok.inj h).symm⟩
    · unfold memWrite bankedWrite at h
      rw [if_neg ha] at h
      split_ifs at h with hc
      simp [(locate_fixed s a (by omega) (by omega)).1] at h

/-! ### Registers and memory together -/

theorem reg_storeErasable (s : State) (l : Loc) (w : Word) (a : Nat) :
    reg (storeErasable s l w) a = reg s a := reg_congr _ _ rfl a

theorem locate_congr (s t : State) (h : t.regs = s.regs) (hb : t.sb = s.sb) (a : Nat) :
    locate t a = locate s a := by
  unfold locate ebField fbField
  rw [slot_congr s t h, slot_congr s t h, hb]

theorem readLoc_storeErasable_same (s : State) (l : Loc) (w : Word) (hl : l.region = .erasable)
    (h : s.erasable.Pairwise (fun c d => c.1 < d.1)) : readLoc (storeErasable s l w) l = w := by
  simp only [readLoc, hl, storeErasable_erasable]
  exact Memory.readWord_writeWord_same _ _ _ h

theorem memWf_setReg (s : State) (a : Nat) (v : Reg) (h : s.MemWf) : (setReg s a v).MemWf := by
  simpa only [State.MemWf, setReg_erasable, setReg_fixed] using h

theorem memWf_storeErasable (s : State) (a : Nat) (w : Word) (ha : a < 0o2000) (h : s.MemWf) :
    (storeErasable s (locate s a) w).MemWf :=
  ⟨Memory.writeWord_wf _ _ _ _ h.1 (index_erasable_lt s a ha), h.2⟩

/-- A completed write keeps the canonical form of memory. -/
theorem memWf_memWrite (s t : State) (a : Nat) (v : Reg) (h : s.MemWf)
    (ht : memWrite s a v = .ok t) : t.MemWf := by
  rcases memWrite_ok s t a v ht with ⟨-, rfl⟩ | ⟨-, h2, rfl⟩
  · exact memWf_setReg s a v h
  · exact memWf_storeErasable s a _ h2 h

/-- A completed write keeps the registers within their masks. -/
theorem regsWf_memWrite (s t : State) (a : Nat) (v : Reg) (h : s.RegsWf)
    (ht : memWrite s a v = .ok t) : t.RegsWf := by
  rcases memWrite_ok s t a v ht with ⟨-, rfl⟩ | ⟨-, -, rfl⟩
  · exact regsWf_setReg s a v h
  · exact regsWf_congr _ _ rfl h

/-- A completed write leaves fixed memory and the control state alone. -/
theorem memWrite_sameControl (s t : State) (a : Nat) (v : Reg) (ht : memWrite s a v = .ok t) :
    t.fixed = s.fixed ∧ SameControl s t := by
  rcases memWrite_ok s t a v ht with ⟨-, rfl⟩ | ⟨-, -, rfl⟩ <;> simp [SameControl]

/-! ### Pending interrupts -/

theorem mem_insertIndex (i j : Nat) (l : List Nat) : j ∈ insertIndex i l ↔ j = i ∨ j ∈ l := by
  induction l with
  | nil => simp [insertIndex]
  | cons k ks ih =>
    unfold insertIndex
    split_ifs with h1 h2
    · simp
    · subst h2; simp
    · simp only [List.mem_cons, ih]; tauto

/-- Posting keeps the pending indices strictly rising. -/
theorem insertIndex_rising (i : Nat) (l : List Nat) (h : l.Pairwise (· < ·)) :
    (insertIndex i l).Pairwise (· < ·) := by
  induction l with
  | nil => simp [insertIndex]
  | cons k ks ih =>
    have hk := List.pairwise_cons.mp h
    unfold insertIndex
    split_ifs with h1 h2
    · refine List.pairwise_cons.mpr ⟨fun j hj => ?_, h⟩
      rcases List.mem_cons.mp hj with rfl | hj
      · exact h1
      · exact lt_trans h1 (hk.1 j hj)
    · exact h
    · refine List.pairwise_cons.mpr ⟨fun j hj => ?_, ih hk.2⟩
      rcases (mem_insertIndex i j ks).mp hj with rfl | hj
      · omega
      · exact hk.1 j hj

/-! ### Interrupt entry -/

/-- What a completed interrupt entry did (60_exceptions.md R232). -/
theorem deliver_ok (s t : State) (i : Nat) (h : deliver s i = .ok t) :
    ∃ w, memRead (saveZ s) (zAddr (saveZ s)) = .ok w ∧
      t = { setZ (setReg (saveZ s) s.params.addrBrupt w) (vector i) with
        intsOff := true, pending := s.pending.filter (fun j => j ≠ i) } := by
  unfold deliver at h
  cases hr : memRead (saveZ s) (zAddr (saveZ s)) with
  | error f => simp [hr] at h
  | ok w =>
    simp only [hr, Except.ok.injEq] at h
    exact ⟨w, rfl, by rw [← h]; simp⟩

/-- Phase 3 takes no interrupt, or the deliverable one. -/
theorem deliverInterrupt_ok (s t : State) (h : deliverInterrupt s = .ok t) :
    (deliverable s = none ∧ t = s) ∨ ∃ i, deliverable s = some i ∧ deliver s i = .ok t := by
  unfold deliverInterrupt at h
  cases hd : deliverable s with
  | none => simp only [hd, Except.ok.injEq] at h; exact .inl ⟨rfl, h.symm⟩
  | some i => simp only [hd] at h; exact .inr ⟨i, rfl, h⟩

/-- A deliverable interrupt is pending, the lowest, and interrupts are enabled. -/
theorem deliverable_some (s : State) (i : Nat) (h : deliverable s = some i) :
    s.intsOff = false ∧ i ∈ s.pending ∧ ∀ j ∈ s.pending, i ≤ j := by
  unfold deliverable at h
  split_ifs at h with h1
  have hm := List.min?_eq_some_iff.mp h
  exact ⟨by simpa using h1, hm.1, hm.2⟩

/-! ### Timers -/

/-- The accumulators after phase 2 (60_exceptions.md R240). -/
theorem advanceTimers_timers (s : State) (t : Nat) :
    (advanceTimers s t).timers =
      ⟨(tick s.params.timerInterval t s.timers.time1).1,
        (tick s.params.timerInterval t s.timers.time3).1,
        (tick s.params.timerInterval t s.timers.time4).1,
        (tick s.params.timerInterval t s.timers.time5).1⟩ := by
  simp [advanceTimers]

/-- A tick adds `delta` and takes the interval off once when it is reached. -/
theorem tick_cases (n t : Nat) (acc : Int) :
    ((n : Int) ≤ acc + t ∧ tick n t acc = (acc + t - n, true)) ∨
    (acc + t < n ∧ tick n t acc = (acc + t, false)) := by
  unfold tick
  by_cases h : (n : Int) ≤ acc + t
  · exact .inl ⟨h, by simp [h]⟩
  · exact .inr ⟨by omega, by simp [h]⟩

/-- A step no longer than the interval keeps an accumulator in range. -/
theorem accOk_tick (n t : Nat) (acc : Int) (ht : t ≤ n) (h : accOk n acc) :
    accOk n (tick n t acc).1 := by
  simp only [accOk] at *
  rcases tick_cases n t acc with ⟨h1, h2⟩ | ⟨h1, h2⟩ <;> rw [h2] <;> constructor <;> simp only <;>
    omega

/-! ### The end of a step and the step -/

theorem orFault_next (r : Except Fault State) (t : State) (h : orFault r = .next t) : r = .ok t := by
  cases r with
  | error f => simp [orFault] at h
  | ok u => simp only [orFault, Host.Outcome.next.injEq] at h; rw [h]

/-- How a step that answers a next state ended. -/
theorem finishStep_next (n : Nat) (s t : State) (h : finishStep n s = .next t) :
    deliverInterrupt (phase2 n s) = .ok t := orFault_next _ _ h

/-- What a step that answers a next state ran: the top sequence, or the fetched instruction. -/
theorem step_next (s t : State) (h : step s = .next t) :
    s.fault = none ∧
    ((∃ q rest, s.seqStack = q :: rest ∧
        finishStep (seqTiming q) (runSeq q (popped s rest)) = .next t) ∨
     (s.seqStack = [] ∧ ∃ i u, fetchInstr s = .ok i ∧ exec i (advanceZ s) = .next u ∧
        finishStep (timing i) u = .next t)) := by
  unfold step cycle at h
  cases hf : s.fault with
  | some f => simp [hf] at h
  | none =>
    refine ⟨rfl, ?_⟩
    simp only [hf] at h
    cases hs : s.seqStack with
    | cons q rest => simp only [hs] at h; exact .inl ⟨q, rest, rfl, h⟩
    | nil =>
      simp only [hs] at h
      cases hi : fetchInstr s with
      | error f => simp [hi] at h
      | ok i =>
        simp only [hi] at h
        cases he : exec i (advanceZ s) with
        | next u => simp only [he] at h; exact .inr ⟨rfl, i, u, rfl, he, h⟩
        | fault f => simp [he] at h
        | refused r => simp [he] at h

/-! ### What each meaning can do -/

/-- What CA and CS did when they completed (43_load.md R180, R182). -/
theorem loadA_next (f : Reg → Reg) (k : Addr) (s t : State) (h : loadA f k s = .next t) :
    ∃ v, memRead s k.toNat = .ok v ∧
      ((isErasableOperand k = true ∧ memWrite (setReg s slotA (f v)) k.toNat v = .ok t) ∨
       (isErasableOperand k = false ∧ t = setReg s slotA (f v))) := by
  unfold loadA at h
  cases hr : memRead s k.toNat with
  | error e => simp [hr] at h
  | ok v =>
    simp only [hr] at h
    refine ⟨v, rfl, ?_⟩
    by_cases hk : isErasableOperand k = true
    · rw [if_pos hk] at h; exact .inl ⟨hk, orFault_next _ _ h⟩
    · rw [if_neg hk] at h
      exact .inr ⟨by simpa using hk, (Host.Outcome.next.inj h).symm⟩

/-- The erasable test of CA and CS is `k < 02000`. -/
theorem isErasableOperand_iff (k : Addr) : isErasableOperand k = true ↔ k.toNat < 0o2000 := by
  unfold isErasableOperand
  rw [beq_iff_eq]
  constructor
  · intro h
    have hb : ∀ i, 10 ≤ i → i < 12 → k.getLsbD i = false := by
      intro i h1 h2
      have := congrArg (fun x : Addr => x.getLsbD i) h
      simp only [BitVec.getLsbD_and] at this
      interval_cases i <;> simpa using this
    apply Nat.lt_pow_two_of_testBit (n := 10)
    intro i hi
    by_cases h2 : i < 12
    · exact hb i hi h2
    · exact Nat.testBit_lt_two_pow (lt_of_lt_of_le k.isLt (Nat.pow_le_pow_right (by decide) (by omega)))
  · intro h
    apply BitVec.eq_of_getLsbD_eq
    intro i hi
    have h10 : ∀ i, 10 ≤ i → k.getLsbD i = false := by
      intro i h1
      have h2 : (2 : Nat) ^ 10 ≤ 2 ^ i := Nat.pow_le_pow_right (by decide) h1
      exact Nat.testBit_lt_two_pow (lt_of_lt_of_le h h2)
    have hA := h10 10 (by decide)
    have hB := h10 11 (by decide)
    interval_cases i <;> simp_all

/-- What DXCH did when it completed (44_exchange_store.md R190). -/
theorem execDxch_next (k : Addr) (s t : State) (h : execDxch k s = .next t) :
    ∃ m0 m1 s1 s2, memRead s k.toNat = .ok m0 ∧ memRead s (pairSecond k) = .ok m1 ∧
      memWrite s k.toNat (reg s slotA) = .ok s1 ∧ memWrite s1 (pairSecond k) (reg s slotL) = .ok s2 ∧
      t = setReg (setReg s2 slotA m0) slotL m1 := by
  unfold execDxch at h
  cases h0 : memRead s k.toNat with
  | error e => simp [h0] at h
  | ok m0 =>
    cases h1 : memRead s (pairSecond k) with
    | error e => simp [h0, h1] at h
    | ok m1 =>
      cases h2 : memWrite s k.toNat (reg s slotA) with
      | error e => simp [h0, h1, h2] at h
      | ok s1 =>
        cases h3 : memWrite s1 (pairSecond k) (reg s slotL) with
        | error e => simp [h0, h1, h2, h3] at h
        | ok s2 =>
          simp only [h0, h1, h2, h3, Host.Outcome.next.injEq] at h
          exact ⟨m0, m1, s1, s2, rfl, rfl, rfl, h3, h.symm⟩

/-- What TS did when it completed (44_exchange_store.md R192). -/
theorem execTs_next (k : Addr) (s t : State) (h : execTs k s = .next t) :
    ∃ s1, memWrite s k.toNat (reg s slotA) = .ok s1 ∧ t = skipOnOverflow s1 := by
  unfold execTs at h
  cases h0 : memWrite s k.toNat (reg s slotA) with
  | error e => simp [h0] at h
  | ok s1 =>
    simp only [h0, Host.Outcome.next.injEq] at h
    exact ⟨s1, rfl, h.symm⟩

/-- Writing A's own value to any operand leaves A as it was, so TS tests the A it stored. -/
theorem reg_A_memWrite (s t : State) (a : Nat) (h : memWrite s a (reg s slotA) = .ok t) :
    reg t slotA = reg s slotA := by
  rcases memWrite_ok s t a _ h with ⟨-, rfl⟩ | ⟨-, -, rfl⟩
  · by_cases ha : a = slotA
    · subst ha
      rw [reg_setReg_same _ _ _ (by decide) (by decide)]
      rfl
    · exact reg_setReg_other _ _ _ _ (by simp only [Touches, slotA, slotBB, slotEB, slotFB] at *; omega)
  · exact reg_storeErasable _ _ _ _

/-! ### What the parts of a step leave alone -/

/-- Interrupt entry writes three registers, `intsOff` and `pending`, and nothing else. -/
theorem deliver_control (s t : State) (i : Nat) (h : deliver s i = .ok t) :
    t.sb = s.sb ∧ t.intsOff = true ∧ t.seqStack = s.seqStack ∧ t.timers = s.timers ∧ t.mct = s.mct ∧
    t.erasable = s.erasable ∧ t.fixed = s.fixed ∧ t.fault = s.fault ∧ t.params = s.params := by
  obtain ⟨w, -, rfl⟩ := deliver_ok s t i h
  simp

/-- The end of a step advances the timers, adds its timing, and keeps memory, `sb`, the fault record
and the parameters. -/
theorem finishStep_control (n : Nat) (s t : State) (h : finishStep n s = .next t) :
    t.sb = s.sb ∧ t.seqStack = (phase2 n s).seqStack ∧ t.timers = (phase2 n s).timers ∧
    t.mct = s.mct + n ∧ t.erasable = s.erasable ∧ t.fixed = s.fixed ∧ t.fault = s.fault ∧
    t.params = s.params := by
  rcases deliverInterrupt_ok _ _ (finishStep_next n s t h) with ⟨-, rfl⟩ | ⟨i, -, h⟩
  · simp
  · have := deliver_control _ _ _ h
    simp at this
    simp [this]

/-- A sequence writes one register and `pending`. -/
theorem executeSeq_control (q : SeqName) (s : State) :
    (executeSeq q s).1.sb = s.sb ∧ (executeSeq q s).1.intsOff = s.intsOff ∧
    (executeSeq q s).1.seqStack = s.seqStack ∧ (executeSeq q s).1.timers = s.timers ∧
    (executeSeq q s).1.mct = s.mct ∧ (executeSeq q s).1.erasable = s.erasable ∧
    (executeSeq q s).1.fixed = s.fixed ∧ (executeSeq q s).1.fault = s.fault ∧
    (executeSeq q s).1.params = s.params := by
  cases q <;>
    simp only [executeSeq, pincTime1, pincTime2, pincTime3, pincTime4, pincTime5, pincPosting] <;>
    (try split) <;> simp

/-- The only child a sequence chains is PINC TIME2, from PINC TIME1. -/
theorem executeSeq_child (q c : SeqName) (s : State) (h : (executeSeq q s).2 = some c) :
    q = .pincTime1 ∧ c = .pincTime2 := by
  cases q
  · simp only [executeSeq, pincTime1] at h
    split_ifs at h
    exact ⟨rfl, (Option.some.inj h).symm⟩
  all_goals cases h

/-- Phase 1 of a sequence step: the sequence's state, with its child on the stack if it has one. -/
theorem runSeq_control (q : SeqName) (s : State) :
    (runSeq q s).sb = s.sb ∧ (runSeq q s).intsOff = s.intsOff ∧ (runSeq q s).timers = s.timers ∧
    (runSeq q s).mct = s.mct ∧ (runSeq q s).erasable = s.erasable ∧ (runSeq q s).fixed = s.fixed ∧
    (runSeq q s).fault = s.fault ∧ (runSeq q s).params = s.params ∧
    (∀ a, reg (runSeq q s) a = reg (executeSeq q s).1 a) ∧
    ((runSeq q s).seqStack = s.seqStack ∨
      (q = .pincTime1 ∧ (runSeq q s).seqStack = .pincTime2 :: s.seqStack)) := by
  have hs := executeSeq_control q s
  have hc := executeSeq_child q
  unfold runSeq
  rcases h : executeSeq q s with ⟨t, _ | c⟩
  · rw [h] at hs
    simp only at hs
    simp [hs]
  · rw [h] at hs
    simp only at hs
    obtain ⟨rfl, rfl⟩ := hc c s (by rw [h])
    simp [hs]
    exact fun a => reg_congr _ _ rfl a

/-- An instruction writes registers, erasable memory and `intsOff`, and nothing else. -/
theorem exec_control (i : Instr) (s t : State) (h : exec i s = .next t) :
    t.sb = s.sb ∧ t.pending = s.pending ∧ t.seqStack = s.seqStack ∧ t.timers = s.timers ∧
    t.mct = s.mct ∧ t.fixed = s.fixed ∧ t.fault = s.fault ∧ t.params = s.params := by
  have load : ∀ f k, loadA f k s = .next t → t.fixed = s.fixed ∧ SameControl s t := by
    intro f k h
    obtain ⟨v, -, ⟨-, h⟩ | ⟨-, rfl⟩⟩ := loadA_next f k s t h
    · have := memWrite_sameControl _ _ _ _ h
      simpa [SameControl] using this
    · simp [SameControl]
  cases i with
  | relint => cases h; simp
  | inhint => cases h; simp
  | tcf k => cases h; simp
  | ca k => have := load _ k h; simp only [SameControl] at this; simp [this]
  | cs k => have := load _ k h; simp only [SameControl] at this; simp [this]
  | dxch k =>
    obtain ⟨m0, m1, s1, s2, -, -, h1, h2, rfl⟩ := execDxch_next k s t h
    have a := memWrite_sameControl _ _ _ _ h1
    have b := memWrite_sameControl _ _ _ _ h2
    simp only [SameControl] at a b
    simp [a, b]
  | ts k =>
    obtain ⟨s1, h1, rfl⟩ := execTs_next k s t h
    have a := memWrite_sameControl _ _ _ _ h1
    simp only [SameControl] at a
    unfold skipOnOverflow
    split <;> simp [a]

/-- An instruction takes 1 to 3 MCT. -/
theorem timing_bounds (i : Instr) : 1 ≤ timing i ∧ timing i ≤ 3 := by
  cases i <;> simp [timing, Instr.opcode, Opcode.entry]

end Sys2Proof.Machine
end

