-- ==== Sys2Proof/Laws/PerInstr.lean ====
section
/-! SUPPORT. Facts about every instruction as syntax, one lemma per constructor. -/

namespace Sys2Proof.Laws

/-- The word of a well-formed instruction matches its own decoder entry: its opcode bits are the
entry's base (30_encoding.md R111, R113, R127). -/
def EncodeMatches.Statement (i : Instr) : Prop :=
  i.wellFormed = true → i.opcode.entry.matchesWord (encode i) = true

/-- A test over all 12-bit operands, cut into 64 blocks of 64. -/
theorem all_operands {P : Addr → Bool} (h : ∀ j < 64, ∀ i < 64, P (BitVec.ofNat 12 (64 * j + i)) = true)
    (k : Addr) : P k = true := by
  have hk := h (k.toNat / 64) (by have := k.isLt; omega) (k.toNat % 64) (by omega)
  rwa [Nat.div_add_mod, BitVec.ofNat_toNat, BitVec.setWidth_eq] at hk

/-- `EncodeMatches.Statement` as a test. -/
def encodeMatches (i : Instr) : Bool :=
  !i.wellFormed || i.opcode.entry.matchesWord (encode i)

theorem EncodeMatches.of_test {i : Instr} (h : encodeMatches i = true) : EncodeMatches.Statement i := by
  intro hw
  simpa [encodeMatches, hw] using h

theorem EncodeMatches.relint : EncodeMatches.Statement .relint := fun _ => by decide

theorem EncodeMatches.inhint : EncodeMatches.Statement .inhint := fun _ => by decide

theorem EncodeMatches.tcf (k : Addr) : EncodeMatches.Statement (.tcf k) :=
  EncodeMatches.of_test (all_operands (P := fun k => encodeMatches (.tcf k)) (by decide +kernel) k)

theorem EncodeMatches.ca (k : Addr) : EncodeMatches.Statement (.ca k) :=
  EncodeMatches.of_test (all_operands (P := fun k => encodeMatches (.ca k)) (by decide +kernel) k)

theorem EncodeMatches.cs (k : Addr) : EncodeMatches.Statement (.cs k) :=
  EncodeMatches.of_test (all_operands (P := fun k => encodeMatches (.cs k)) (by decide +kernel) k)

theorem EncodeMatches.dxch (k : Addr) : EncodeMatches.Statement (.dxch k) :=
  EncodeMatches.of_test (all_operands (P := fun k => encodeMatches (.dxch k)) (by decide +kernel) k)

theorem EncodeMatches.ts (k : Addr) : EncodeMatches.Statement (.ts k) :=
  EncodeMatches.of_test (all_operands (P := fun k => encodeMatches (.ts k)) (by decide +kernel) k)

end Sys2Proof.Laws
end

