-- ==== Sys2Proof/Tests/Slice0.lean ====
section
/-! SUPPORT. Tests on fixed values: the refusals of WellFormed, words written out from the bit layouts
of 30_encoding.md R111 and R114, vectors of 95_test_vectors.md (named in each comment), and for each
obligation with hypotheses a state and operands that meet them. -/

namespace Sys2Proof.Tests

open Sys2Proof.Machine

/-! ### Helpers -/

/-- Reset with registers, erasable words and fixed words put in place; a word is (bank, offset, word). -/
def start (regs : List (Nat × Reg)) (era fix : List (Nat × Nat × Word)) : State :=
  let s1 := regs.foldl (fun s r => putSlot s r.1 r.2) State.reset
  let s2 := era.foldl (fun s c => placeWord s ⟨.erasable, c.1, c.2.1⟩ c.2.2) s1
  fix.foldl (fun s c => placeWord s ⟨.fixed, c.1, c.2.1⟩ c.2.2) s2

/-- The registers asked for, after one step, and the MCT count. -/
def stepRegs (s : State) (l : List Nat) : List Reg × Nat :=
  let t := settle s
  (l.map (reg t), t.mct)

/-- An erasable word after one step. -/
def stepWord (s : State) (b o : Nat) : Word := readLoc (settle s) ⟨.erasable, b, o⟩

/-- The limit of the literal source, with the window set to bank 36: reads of it are out of range. -/
def outOfRangeWindow : State :=
  { start [(slotFB, 0o70000)] [] [] with
    sb := true, params := { Config.defaults with fixedBankLimit := 36 } }

/-! ### WellFormed refuses -/

theorem test_dxch_odd_refused : (Instr.dxch 0o201).wellFormed = false := by decide
theorem test_dxch_above_range_refused : (Instr.dxch 0o2000).wellFormed = false := by decide
theorem test_ts_above_range_refused : (Instr.ts 0o2000).wellFormed = false := by decide

/-! ### Decoding words written out bit by bit -/

theorem test_decode_relint : decode 0b000000000000011 = .ok .relint := by decide
theorem test_decode_inhint : decode 0b000000000000100 = .ok .inhint := by decide
theorem test_decode_tcf : decode 0b001100011010001 = .ok (.tcf 0o4321) := by decide
theorem test_decode_ca : decode 0b011000001000000 = .ok (.ca 0o100) := by decide
theorem test_decode_cs : decode 0b100100000000101 = .ok (.cs 0o4005) := by decide
theorem test_decode_dxch : decode 0b101010010000001 = .ok (.dxch 0o200) := by decide
theorem test_decode_ts : decode 0b101100001010011 = .ok (.ts 0o123) := by decide
/-- V-DXCH7: bit 0 of DXCH's opcode is 1. -/
theorem test_decode_dxch_bit0 : decode 0b101010010000000 = .error (.noEntry 0o52200) := by decide
/-- INDEX, 006 and 000000 are not in the subset (R118). -/
theorem test_decode_outside : decode 0o50000 = .error (.noEntry 0o50000) ∧
    decode 0o6 = .error (.noEntry 6) ∧ decode 0 = .error (.noEntry 0) := by decide
theorem test_decode_table_word : decodeTableWord 16 0o54123 = some (.ts 0o123) := by decide

/-! ### One step of each instruction -/

/-- V-RELINT2. -/
theorem test_relint_delivers :
    stepRegs { start [] [] [(2, 0, 0o3), (2, 1, 0o14001)] with intsOff := true, pending := [3] }
      [slotZ, 0o15, 0o17] = ([0o4014, 0o4001, 0o14001], 1) := by decide
/-- V-INHINT2. -/
theorem test_inhint_holds :
    (settle { start [] [] [(2, 0, 0o4)] with pending := [4] }).pending = [4] := by decide
/-- V-TCF1. -/
theorem test_tcf : stepRegs (start [] [] [(2, 0, 0o14321)]) [slotZ] = ([0o4321], 1) := by decide
/-- V-TCF7: the advance of Z wraps at 12 bits. -/
theorem test_fetch_wraps :
    stepRegs (start [(slotZ, 0o7777)] [] [(3, 0o1777, 3)]) [slotZ] = ([0], 1) := by decide
/-- V-CA2: no sign extension. -/
theorem test_ca_negative :
    stepRegs (start [] [(0, 0o100, 0o77772)] [(2, 0, 0o30100)]) [slotA, slotZ] =
      ([0o77772, 0o4001], 2) := by decide
/-- V-CA4: the write-back edits CYR again. -/
theorem test_ca_cyr :
    stepRegs (start [(slotCYR, 3)] [] [(2, 0, 0o30020)]) [slotA, slotCYR] = ([3, 0o40001], 2) := by
  decide
/-- V-CS1. -/
theorem test_cs :
    stepRegs (start [] [(0, 0o100, 5)] [(2, 0, 0o40100)]) [slotA] = ([0o177772], 2) := by decide
/-- V-CS2: the write-back restores A. -/
theorem test_cs_a : stepRegs (start [(slotA, 0o12)] [] [(2, 0, 0o40000)]) [slotA] = ([0o12], 2) := by
  decide
/-- V-DXCH2: a jump with a bank change. -/
theorem test_dxch_fb_z :
    stepRegs (start [(slotA, 0o14000), (slotL, 0o4100)] [] [(2, 0, 0o52005)])
      [slotFB, slotZ, slotA, slotL] = ([0o14000, 0o4100, 0, 0o4001], 3) := by decide
/-- V-DXCH4: register 060 with erasable word 061. -/
theorem test_dxch_boundary :
    stepWord (start [(slotA, 0o111), (slotL, 0o222), (0o60, 0o333)] [(0, 0o61, 0o444)]
      [(2, 0, 0o52061)]) 0 0o61 = 0o222 := by decide
/-- V-TS2: the stored word keeps bit 14 and the step skips. -/
theorem test_ts_overflow :
    stepRegs (start [(slotA, 0o40123)] [] [(2, 0, 0o54123)]) [slotA, slotZ] = ([1, 0o4002], 2) ∧
    stepWord (start [(slotA, 0o40123)] [] [(2, 0, 0o54123)]) 0 0o123 = 0o40123 := by decide
/-- V-TS5: TS Z with overflow. -/
theorem test_ts_z :
    stepRegs (start [(slotA, 0o44100)] [] [(2, 0, 0o54005)]) [slotA, slotZ] = ([1, 0o4101], 2) := by
  decide

/-! ### Registers, sequences, timers, loader -/

/-- V-REG5, V-REG6, V-REG11. -/
theorem test_set_editing :
    reg (setReg State.reset slotBB 0o14005) slotBB = 0o14005 ∧
    reg (setReg State.reset slotBB 0o177777) slotBB = 0o76007 ∧
    reg (setReg State.reset slotCYR 0o12345) slotCYR = 0o45162 := by decide
/-- V-INC1, V-INC2. -/
theorem test_increment :
    (increment (start [(0o26, 0o77776)] [] []) 0o26).2 = false ∧
    (increment (start [(0o26, 0o77777)] [] []) 0o26).2 = true := by decide
/-- V-T11: the step after the rollover pops PINC TIME1 and chains PINC TIME2. -/
theorem test_pinc_chain :
    (settle { start [(0o25, 0o77777)] [] [] with seqStack := [.pincTime1] }).seqStack =
      [.pincTime2] := by decide
/-- A yaagc image begins with bank 2, left-aligned (R93). -/
theorem test_launch_yaagc :
    (match launch { Config.defaults with loadFormat := .yaagc } [[0x30], [0]] with
      | .ok s => readLoc s ⟨.fixed, 2, 0⟩
      | .error _ => 0) = 0o14000 := by decide

/-! ### States and operands that meet the obligations' hypotheses -/

/-- The outcome is a next state. -/
def completes (o : Host.Outcome State Fault Refusal) : Bool :=
  match o with
  | .next _ => true
  | .fault _ => false
  | .refused _ => false

/-- An outcome that completes is a next state, so `step s = .next t` has a `t`. -/
theorem completes_next {o : Host.Outcome State Fault Refusal} (h : completes o = true) :
    ∃ t, o = .next t := by
  cases o with
  | next t => exact ⟨t, rfl⟩
  | fault f => cases h
  | refused r => cases h

/-- The image whose first word is TCF 04000: a run that never faults. -/
def loopState : State := start [] [] [(2, 0, 0o14000)]

theorem test_meets_DecodeOfEncodeIsTheInstruction :
    (Instr.tcf 0o7777).wellFormed = true ∧ (Instr.ca 0).wellFormed = true ∧
    (Instr.dxch 0o1776).wellFormed = true ∧ (Instr.ts 0o1777).wellFormed = true := by decide

theorem test_meets_EncodeOfDecodeIsTheWord : decode 0o53777 = .ok (.dxch 0o1776) := by decide

theorem test_meets_OddDxchOperandNamesThePairBelow :
    fitsE10 1 = true ∧ (1 : Addr).toNat % 2 = 1 ∧ fitsE10 0o1777 = true ∧
    (0o1777 : Addr).toNat % 2 = 1 := by decide

theorem test_meets_RegisterWritesFollowTheTable : (0 : Nat) < 0o61 ∧ (6 : Nat) < 0o61 ∧
    (0o60 : Nat) < 0o61 := by decide

theorem test_meets_IncrementWrapsAtTheCeiling :
    Config.PlainSlot 7 ∧ Config.PlainSlot 0o60 ∧ reg (start [(slotL, 0o77777)] [] []) 1 = 0o77777 := by
  decide

theorem test_meets_BankedStoreIsReadBack :
    0o10000 ≤ (0o10000 : Nat) ∧ (0o2000 ≤ (0o2000 : Nat) ∧ (0o7777 : Nat) < 0o10000) ∧
    (0o1777 : Nat) < 0o2000 ∧ State.reset.MemWf := by decide

theorem test_meets_BankedReadFailsOnlyOutOfRange :
    (0o7777 : Nat) < 0o10000 ∧ State.reset.params.fixedBankLimit = 40 ∧
    (locate outOfRangeWindow 0o2000).region = .fixed ∧
    outOfRangeWindow.params.fixedBankLimit ≤ (locate outOfRangeWindow 0o2000).bank := by decide

/-- Fields 2 and 3, and field 030 with the super-bit. -/
theorem test_meets_FixedWindowFollowsTheSuperBit :
    (reg (start [(slotFB, 0o4000)] [] []) 4).toNat / 0o2000 % 0o40 = 2 ∧
    (reg (start [(slotFB, 0o6000)] [] []) 4).toNat / 0o2000 % 0o40 = 3 ∧
    ({ start [(slotFB, 0o60000)] [] [] with sb := true }).sb = true ∧
    0o30 ≤ (reg { start [(slotFB, 0o60000)] [] [] with sb := true } 4).toNat / 0o2000 % 0o40 := by
  decide

theorem test_meets_ShadowedWordsNeedTheWindow :
    ebField State.reset = 0 ∧ (0o60 : Nat) < 0o61 ∧
    locate State.reset (0o1400 + 0o60) = ⟨.erasable, 0, 0o60⟩ := by decide

theorem test_meets_EqualReadsMeanEqualMemories :
    Memory.wf 1 [(0, 5)] ∧ ∀ i < 1, Memory.readWord [(0, 5)] i = Memory.readWord [(0, 5)] i := by decide

theorem test_meets_PseudoInvertsBankAndOffset :
    isValid 0x17FF = true ∧ isValid 0xAFFF = true ∧ isValid 0x1800 = false ∧
    (bankAndOffset 0xAFFF = .ok ⟨.fixed, 39, 1023⟩ ∧ bankAndOffset 0x07FF = .ok ⟨.erasable, 7, 255⟩) := by
  decide

/-- Window banks just past the unswitched ones: erasable 3 and fixed 4. -/
theorem test_meets_OperandsReachTheirPseudoAddress :
    (0o1377 : Addr).toNat < 0o1400 ∧ 0o4000 ≤ (0o4000 : Addr).toNat ∧
    2 < ebField (start [(slotEB, 0o1400)] [] []) ∧
    fbank (fbField (start [(slotFB, 0o10000)] [] [])) false ≠ 2 ∧
    fbank (fbField (start [(slotFB, 0o10000)] [] [])) false ≠ 3 := by decide

theorem test_meets_NextValidSkipsNothingValid :
    isValid 0x07FF = true ∧ isValid 0xAFFF = true ∧ isValid 0x17FF = true ∧ isValid 0x1FFF = false ∧
    nextValid 0x17FF = .ok 0x2000 := by decide

/-- CA and CS: register 060, the first memory word, and the ends of both kinds of memory. -/
theorem test_meets_CaLoadsAndWritesBack :
    State.reset.RegsWf ∧ State.reset.MemWf ∧ Readable State.reset 0 ∧ Readable State.reset 0o20 ∧
    Readable State.reset 0o60 ∧ Readable State.reset 0o61 ∧ Readable State.reset 0o1777 ∧
    Readable State.reset 0o2000 ∧ Readable State.reset 0o7777 := by decide

theorem test_meets_CsLoadsTheComplement :
    (start [(slotCYR, 3)] [] []).RegsWf ∧ (start [(slotCYR, 3)] [] []).MemWf ∧
    Readable (start [(slotCYR, 3)] [] []) 0o20 ∧ Readable (start [(slotCYR, 3)] [] []) 0 := by decide

theorem test_meets_LoadsNeverExtendTheSign :
    bankedRead (start [] [(0, 0o61, 0o77772)] []) 0o61 = .ok 0o77772 ∧
    bankedRead (start [] [] [(3, 0o1777, 5)]) 0o7777 = .ok 5 := by decide

theorem test_meets_LoadsFaultOnlyOnBanksOutOfRange :
    ¬Readable outOfRangeWindow (0o2000 : Addr).toNat ∧
    ¬Readable outOfRangeWindow (0o3777 : Addr).toNat ∧
    exec (.ca 0o2000) outOfRangeWindow = .fault (.outOfRange 0o2000 (some 36)) ∧
    exec (.cs 0o3777) outOfRangeWindow = .fault (.outOfRange 0o3777 (some 36)) :=
  ⟨by decide, by decide, rfl, rfl⟩

theorem test_meets_DxchSwapsInTheSpecsOrder : fitsD9 0 = true ∧ fitsD9 0o1776 = true := by decide

theorem test_meets_DxchSwapsAMemoryPair :
    fitsD9 0o62 = true ∧ 0o61 ≤ (0o62 : Addr).toNat ∧ fitsD9 0o1776 = true ∧ State.reset.MemWf := by
  decide

theorem test_meets_DxchOfRegisterPairs :
    State.reset.RegsWf ∧ State.reset.MemWf ∧ (0o10 : Addr).toNat % 2 = 0 ∧ 0o10 ≤ (0o10 : Addr).toNat ∧
    (0o56 : Addr).toNat % 2 = 0 ∧ (0o56 : Addr).toNat < 0o60 ∧ (0o56 : Addr).toNat ≠ 0o20 := by decide

theorem test_meets_TsStoresThenSkipsOnOverflow : fitsE10 0 = true ∧ fitsE10 0o1777 = true := by decide

theorem test_meets_TsToMemoryChangesOneWord :
    fitsE10 0o61 = true ∧ 0o61 ≤ (0o61 : Addr).toNat ∧ State.reset.MemWf ∧
    ovf (reg State.reset slotA) = .none ∧ (start [(slotA, 0o40000)] [] []).MemWf ∧
    ovf (reg (start [(slotA, 0o40000)] [] []) slotA) ≠ .none := by decide

theorem test_meets_TsToRegisters : (0 : Addr).toNat < 0o61 ∧ (0o60 : Addr).toNat < 0o61 := by decide

theorem test_meets_NoopChangesNothing :
    isErasable 0x07FF = true ∧ isFixed 0x17FF = true ∧ nextValid 0x17FF = .ok 0x2000 ∧
    asOperand 0x2000 = .ok 0o2000 := by decide

theorem test_meets_StepRunsTheDecodedInstruction :
    loopState.fault = none ∧ loopState.seqStack = [] ∧
    memRead loopState (reg loopState slotZ).toNat = .ok 0o14000 ∧
    decode ((0o14000 : Reg).setWidth 15) = .ok (.tcf 0o4000) := by decide

theorem test_meets_StepRunsTheTopSequence :
    ({ State.reset with seqStack := [.pincTime1] }).fault = none ∧
    ({ State.reset with seqStack := [.pincTime1] }).seqStack = .pincTime1 :: [] := by decide

theorem test_meets_UndecodableWordEndsTheRun :
    State.reset.fault = none ∧ State.reset.seqStack = [] ∧
    memRead State.reset (reg State.reset slotZ).toNat = .ok 0 ∧
    decode ((0 : Reg).setWidth 15) = .error (.noEntry 0) := by decide

theorem test_meets_FaultIsNeverCleared :
    (settle State.reset).fault = some (.decodeFailure 0 0o4000) ∧
    (∃ t, step loopState = .next t) ∧ step State.reset = .fault (.decodeFailure 0 0o4000) :=
  ⟨by decide, completes_next (by decide), rfl⟩

/-- One state that fetches and one that runs a sequence. -/
theorem test_meets_StepAddsItsTiming :
    (∃ t, step loopState = .next t) ∧ loopState.seqStack = [] ∧
    (∃ t, step { State.reset with seqStack := [.pincTime5] } = .next t) :=
  ⟨completes_next (by decide), by decide, completes_next (by decide)⟩

theorem test_meets_PincTime1CountsAndChains : State.reset.params.Valid := by decide

theorem test_meets_PincTime2OnlyCounts : (start [(0o24, 0o77777)] [] []).params.Valid := by decide

theorem test_meets_PincTime3To5CountAndPost :
    State.reset.params.Valid ∧
    (SeqName.pincTime5, 0o30, 2) ∈ [(SeqName.pincTime3, State.reset.params.addrTime3, State.reset.params.t3rupt),
      (SeqName.pincTime4, State.reset.params.addrTime4, State.reset.params.t4rupt),
      (SeqName.pincTime5, State.reset.params.addrTime5, State.reset.params.t5rupt)] := by decide

/-- A pending sequence with interrupts off. -/
def heldSequence : State := { State.reset with seqStack := [.pincTime3], intsOff := true }

/-- With interrupts off, and with interrupts on and a request that the step delivers (V-SEQ2). -/
theorem test_meets_SequenceStepsLeaveZ :
    heldSequence.fault = none ∧ heldSequence.seqStack = .pincTime3 :: [] ∧ heldSequence.params.Valid ∧
    heldSequence.intsOff = true ∧
    ({ heldSequence with intsOff := false, pending := [3] }).fault = none ∧
    ({ heldSequence with intsOff := false, pending := [3] }).params.Valid ∧
    stepRegs { heldSequence with intsOff := false, pending := [3] } [slotZ, 0o15] =
      ([0o4014, 0o4000], 1) := by decide

theorem test_meets_TimersCountStepTime : ∃ t, step loopState = .next t := completes_next (by decide)

theorem test_meets_StackHoldsAtMostFive : launch Config.defaults [] = .ok State.reset := by decide

/-- The last vector, a readable Z outside ZRUPT, and a Z whose bank is out of range. -/
theorem test_meets_InterruptEntrySavesAndVectors :
    State.reset.params.Valid ∧ State.reset.RegsWf ∧ (511 : Nat) < 512 ∧
    memRead (setReg State.reset State.reset.params.addrZrupt (reg State.reset slotZ))
      (reg State.reset slotZ).toNat = .ok 0 ∧
    (reg State.reset slotZ).toNat ≠ State.reset.params.addrZrupt ∧
    (setZ outOfRangeWindow 0o2000).params.Valid ∧ (setZ outOfRangeWindow 0o2000).RegsWf ∧
    memRead (setReg (setZ outOfRangeWindow 0o2000) 0o15 0o2000) 0o2000 =
      .error (.outOfRange 0o2000 (some 36)) := by decide

theorem test_meets_LowestPendingInterruptIsTaken :
    State.reset.pending = [] ∧ ({ State.reset with pending := [2, 3] }).pending ≠ [] ∧
    ({ State.reset with pending := [2, 3] }).intsOff = false ∧
    (∃ t, deliverInterrupt { State.reset with pending := [2, 3] } = .ok t) :=
  ⟨by decide, by decide, by decide, _, rfl⟩

/-- RELINT at Z with two interrupts held off. -/
def relintPending : State :=
  { start [] [] [(2, 0, 0o3)] with intsOff := true, pending := [3, 4] }

theorem test_meets_RelintDeliversInItsOwnStep :
    relintPending.fault = none ∧ relintPending.seqStack = [] ∧ fetchInstr relintPending = .ok .relint ∧
    3 ∈ relintPending.pending ∧ ∀ j ∈ relintPending.pending, 3 ≤ j := by decide

theorem test_meets_InhintHoldsPendingOff :
    (start [] [] [(2, 0, 0o4)]).fault = none ∧ (start [] [] [(2, 0, 0o4)]).seqStack = [] ∧
    fetchInstr (start [] [] [(2, 0, 0o4)]) = .ok .inhint := by decide

theorem test_meets_StepKeepsTheInvariant : loopState.Inv ∧ ∃ t, step loopState = .next t :=
  ⟨by decide, completes_next (by decide)⟩

theorem test_meets_StepsNeverWriteFixedMemory : ∃ t, step heldSequence = .next t :=
  completes_next (by decide)

/-- A fault of each kind: an undecodable word at the default limit, and a bank above a lower limit. -/
theorem test_meets_OnlyTheseFaultsCanHappen :
    State.reset.RegsWf ∧ State.reset.params.Valid ∧ State.reset.fault = none ∧
    State.reset.params.fixedBankLimit = 40 ∧ step State.reset = .fault (.decodeFailure 0 0o4000) ∧
    outOfRangeWindow.RegsWf ∧ outOfRangeWindow.params.Valid ∧ outOfRangeWindow.fault = none ∧
    (Instr.ca 0o2000).wellFormed = true ∧
    exec (.ca 0o2000) outOfRangeWindow = .fault (.outOfRange 0o2000 (some 36)) :=
  ⟨by decide, by decide, rfl, rfl, rfl, by decide, by decide, rfl, rfl, rfl⟩

/-- Streams one byte too long, of odd length, and full. -/
theorem test_meets_LaunchPlacesTheImage :
    81920 < [List.replicate 81921 (0 : Byte)].flatten.length ∧
    [[1], [2], [(3 : Byte)]].flatten.length ≤ 81920 ∧ [[1], [2], [(3 : Byte)]].flatten.length % 2 = 1 ∧
    [List.replicate 81920 (0 : Byte)].flatten.length ≤ 81920 ∧
    [List.replicate 81920 (0 : Byte)].flatten.length % 2 = 0 := by
  have h (n : Nat) : [List.replicate n (0 : Byte)].flatten.length = n := by
    rw [List.flatten_singleton, List.length_replicate]
  rw [h, h]
  decide

theorem test_meets_LaunchedMachineMeetsTheInvariant :
    Config.defaults.Valid ∧ Config.defaults.timerInterval = 893 ∧
    ∃ s, launch Config.defaults [[0x18], [0]] = .ok s := ⟨by decide, rfl, _, rfl⟩

/-- The longest stack, just after TIME1 and TIME3 rolled over together, and the step that rolls them. -/
theorem test_meets_StepKeepsTheTimerPhases :
    ({ loopState with timers := ⟨892, 892, 223, 446⟩ }).TimerPhases ∧
    (settle { loopState with timers := ⟨892, 892, 223, 446⟩ }).seqStack = [.pincTime3, .pincTime1] ∧
    (settle { loopState with timers := ⟨892, 892, 223, 446⟩ }).TimerPhases ∧
    (∃ t, step { loopState with timers := ⟨892, 892, 223, 446⟩ } = .next t) :=
  ⟨by decide, by decide, by decide, completes_next (by decide)⟩

end Sys2Proof.Tests
end

namespace Sys2Proof.Proofs

open Sys2Proof.Machine

/-- A reset keeps the parameters the host has fixed (R250), whatever the image. -/
@[simp] theorem resetWith_params (p : Config.Params) (image : Memory) :
    (State.resetWith p image).params = p := rfl

/-- The table of R10, in the order of the fields of `Config.Params`. -/
theorem defaults_eq_table :
    Config.defaults =
      ⟨0o4000, false, 40, 893, .native, 2, 3, 4,
        0o15, 0o17, 0o24, 0o25, 0o26, 0o27, 0o30, 0o31⟩ := rfl

/-- Settles O51: the reset of no image passes the defaults through, and they are the table's. -/
theorem defaultParametersAreTheTables : Obligations.DefaultParametersAreTheTables :=
  calc State.reset.params
    _ = Config.defaults := resetWith_params Config.defaults []
    _ = _ := defaults_eq_table

end Sys2Proof.Proofs

/-! ## The register file (R20 to R37) -/

namespace Sys2Proof.Proofs

open Sys2Proof.Machine

/-! ### The bank mirror BB (R28) -/

/-- The view reads bits 10 to 8 of EB, whatever else its container holds. -/
theorem bbView_eq (fb eb : Reg) :
    bbView fb eb = (fb &&& (0o76000 : Reg)) ||| ((eb >>> 8) &&& (7 : Reg)) := by
  unfold bbView
  apply BitVec.eq_of_getLsbD_eq
  intro i hi
  interval_cases i <;> simp

/-- BB is a view of FB and EB in every state. -/
theorem reg_bb_eq (s : State) :
    reg s slotBB = (reg s slotFB &&& (0o76000 : Reg)) ||| ((reg s slotEB >>> 8) &&& (7 : Reg)) := by
  rw [reg_bb, bbView_eq, ← reg_eq_slot s slotFB (by decide), ← reg_eq_slot s slotEB (by decide)]

theorem reg_setReg_bb_eb_eq (s : State) (v : Reg) :
    reg (setReg s slotBB v) slotEB = (v &&& (7 : Reg)) <<< 8 := by
  rw [reg_setReg_bb_eb, storedValue_ebOfBB, ebOfBB]

/-- BB reads back bits 14 to 10 and 2 to 0 of what was written to it. -/
theorem reg_setReg_bb_same (s : State) (v : Reg) :
    reg (setReg s slotBB v) slotBB = (v &&& (0o76000 : Reg)) ||| (v &&& (7 : Reg)) := by
  rw [reg_bb_eq, reg_setReg_bb_fb, reg_setReg_bb_eb_eq, ← ebOfBB, ← bbView_eq, bbView_written]

/-- The mask of EB keeps the bits that BB shows. -/
theorem ebMask_shift (v : Reg) : ((v &&& 0o3400) >>> 8) &&& (7 : Reg) = (v >>> 8) &&& (7 : Reg) := by
  apply BitVec.eq_of_getLsbD_eq
  intro i hi
  interval_cases i <;> simp

theorem reg_bb_setReg_eb (s : State) (v : Reg) :
    reg (setReg s slotEB v) slotBB =
      (reg s slotFB &&& (0o76000 : Reg)) ||| ((v >>> 8) &&& (7 : Reg)) := by
  have hfb : reg (setReg s slotEB v) slotFB = reg s slotFB :=
    reg_setReg_other s slotEB slotFB v (by decide)
  have heb : reg (setReg s slotEB v) slotEB = v &&& 0o3400 :=
    reg_setReg_same s slotEB v (by decide) (by decide)
  rw [reg_bb_eq, hfb, heb, ebMask_shift]

theorem reg_bb_setReg_fb (s : State) (v : Reg) :
    reg (setReg s slotFB v) slotBB =
      (v &&& (0o76000 : Reg)) ||| ((reg s slotEB >>> 8) &&& (7 : Reg)) := by
  have heb : reg (setReg s slotFB v) slotEB = reg s slotEB :=
    reg_setReg_other s slotFB slotEB v (by decide)
  have hfb : reg (setReg s slotFB v) slotFB = v &&& 0o76000 :=
    reg_setReg_same s slotFB v (by decide) (by decide)
  rw [reg_bb_eq, hfb, heb, and_mask_idem]

/-- Settles O8: the view, a write to either side of it, and a write to BB itself. -/
theorem bankMirrorIsConsistent : Obligations.BankMirrorIsConsistent := fun s v =>
  ⟨reg_bb_eq s, reg_bb_setReg_eb s v, reg_bb_setReg_fb s v, reg_setReg_bb_fb s v,
    reg_setReg_bb_eb_eq s v, reg_setReg_bb_same s v⟩

/-! ### One register write (R22) -/

/-- A register write changes the registers it touches and nothing else. -/
theorem changedOnly_setReg {s : State} {a : Nat} {v : Reg} {regs : List Nat}
    (h : ∀ b, Touches a b → b ∈ regs) : ChangedOnly regs [] s (setReg s a v) :=
  ⟨fun b _ hb => reg_setReg_other s a b v (fun ht => hb (h b ht)), by simp, by simp,
    by simp [SameControl]⟩

/-- Settles O7: what a slot holds is its stored value, for BB the view; the mirror is BB's own law,
and the frame lists what the write touches. -/
theorem registerWritesFollowTheTable : Obligations.RegisterWritesFollowTheTable := by
  intro s a v ha
  refine ⟨?value, ?mirror, reg_bb_eq _, changedOnly_setReg fun b hb => ?frame⟩
  case value =>
    by_cases h6 : a = slotBB
    · subst h6; exact reg_setReg_bb_same s v
    · rw [reg_setReg_same s a v ha h6]
      simp only [storedValue, rotr15]
      split_ifs <;> rfl
  case mirror =>
    rintro rfl
    exact ⟨reg_setReg_bb_fb s v, reg_setReg_bb_eb_eq s v⟩
  case frame =>
    rcases hb with rfl | ⟨rfl, rfl | rfl⟩ | ⟨rfl, rfl | rfl⟩
    · split_ifs <;> simp [*]
    all_goals decide

/-! ### CYR (R30) -/

/-- Bit `i` of a rotated value is bit `i + 1` of the 15. -/
theorem getLsbD_rotr15 (v : Reg) (i : Nat) (hi : i < 15) :
    (rotr15 v).getLsbD i = v.getLsbD ((i + 1) % 15) := by
  unfold rotr15
  interval_cases i <;> simp

theorem getLsbD_iterate_rotr15 (n : Nat) (v : Reg) (i : Nat) (hi : i < 15) :
    (rotr15^[n] v).getLsbD i = v.getLsbD ((i + n) % 15) := by
  induction n generalizing i with
  | zero => rw [Function.iterate_zero_apply, Nat.add_zero, Nat.mod_eq_of_lt hi]
  | succ n ih =>
    rw [Function.iterate_succ_apply', getLsbD_rotr15 _ _ hi, ih _ (Nat.mod_lt _ (by decide)),
      Nat.mod_add_mod, Nat.add_right_comm, Nat.add_assoc]

/-- Fifteen rotations bring bits 14 to 0 back; the first one drops bit 15. -/
theorem iterate_rotr15_fifteen (v : Reg) : rotr15^[15] v = v &&& 0o77777 := by
  have hmask : rotr15^[15] v &&& 0o77777 = rotr15^[15] v := by
    rw [Function.iterate_succ_apply', rotr15_masked]
  have hlow : ∀ i < 15, (rotr15^[15] v).getLsbD i = v.getLsbD i := fun i hi => by
    rw [getLsbD_iterate_rotr15 15 v i hi, Nat.add_mod_right, Nat.mod_eq_of_lt hi]
  rw [← hmask]
  apply BitVec.eq_of_getLsbD_eq
  intro i hi
  rw [BitVec.getLsbD_and, BitVec.getLsbD_and]
  by_cases h15 : i < 15
  · rw [hlow i h15]
  · obtain rfl : i = 15 := by omega
    simp

theorem reg_setReg_cyr (s : State) (v : Reg) : reg (setReg s slotCYR v) slotCYR = rotr15 v :=
  reg_setReg_same s slotCYR v (by decide) (by decide)

/-- Each write of the value read rotates CYR once more. -/
theorem reg_iterate_setReg_cyr (n : Nat) (s : State) (v : Reg) :
    reg ((fun t => setReg t slotCYR (reg t slotCYR))^[n] (setReg s slotCYR v)) slotCYR =
      rotr15^[n + 1] v := by
  induction n with
  | zero => exact reg_setReg_cyr s v
  | succ n ih =>
    rw [Function.iterate_succ_apply', reg_setReg_cyr, ih, ← Function.iterate_succ_apply' rotr15]

/-- Settles O9: fourteen more writes after the first make fifteen rotations. -/
theorem fifteenCyrWritesRestoreTheValue : Obligations.FifteenCyrWritesRestoreTheValue := fun s v =>
  (reg_iterate_setReg_cyr 14 s v).trans (iterate_rotr15_fifteen v)

/-! ### The increment (R34) -/

/-- A plain slot is none of the slots that edit what they store or take part in the BB mirror. -/
theorem plainSlot_ne {r : Nat} (h : Config.PlainSlot r) :
    r ≠ slotA ∧ r ≠ slotL ∧ r ≠ slotEB ∧ r ≠ slotFB ∧ r ≠ slotZ ∧ r ≠ slotBB ∧ r ≠ slotCYR := by
  obtain ⟨h7, -, h20⟩ := h
  refine ⟨?_, ?_, ?_, ?_, ?_, ?_, h20⟩ <;> exact Nat.ne_of_gt (Nat.lt_of_lt_of_le (by decide) h7)

/-- A plain slot reads back what is written to it. -/
theorem reg_setReg_plain {r : Nat} (h : Config.PlainSlot r) (s : State) (v : Reg) :
    reg (setReg s r v) r = v := by
  obtain ⟨-, hL, hEB, hFB, hZ, hBB, hCYR⟩ := plainSlot_ne h
  rw [reg_setReg_same s r v h.2.1 hBB]
  simp [storedValue, hL, hEB, hFB, hZ, hCYR]

/-- A write to a plain slot changes that slot and nothing else. -/
theorem changedOnly_setReg_plain {r : Nat} (h : Config.PlainSlot r) (s : State) (v : Reg) :
    ChangedOnly [r] [] s (setReg s r v) := by
  obtain ⟨-, -, hEB, hFB, -, hBB, -⟩ := plainSlot_ne h
  refine changedOnly_setReg fun b hb => ?_
  rcases hb with rfl | ⟨e, -⟩ | ⟨-, e | e⟩
  · exact List.mem_singleton_self b
  · exact absurd e hBB
  · exact absurd e hEB
  · exact absurd e hFB

theorem increment_of_ceiling_le {s : State} {r : Nat} (h : ceiling r ≤ reg s r) :
    increment s r = (setReg s r 0, true) := by
  unfold increment; rw [if_pos h]

theorem increment_of_lt_ceiling {s : State} {r : Nat} (h : ¬ceiling r ≤ reg s r) :
    increment s r = (setReg s r (reg s r + 1), false) := by
  unfold increment; rw [if_neg h]

/-- A plain slot counts to 077777 and wraps there, with overflow. -/
theorem increment_plain (s : State) {r : Nat} (h : Config.PlainSlot r) :
    (increment s r).2 = decide (0x7FFF ≤ (reg s r).toNat) ∧
    (reg (increment s r).1 r).toNat =
      (if 0x7FFF ≤ (reg s r).toNat then 0 else (reg s r).toNat + 1) ∧
    ChangedOnly [r] [] s (increment s r).1 := by
  obtain ⟨hA, hL, -⟩ := plainSlot_ne h
  have hceiling : ceiling r = 0x7FFF := if_neg (not_or_intro hA hL)
  by_cases hc : 0x7FFF ≤ (reg s r).toNat
  · rw [increment_of_ceiling_le (by rw [hceiling]; exact hc), if_pos hc, decide_eq_true hc,
      reg_setReg_plain h]
    exact ⟨rfl, rfl, changedOnly_setReg_plain h s 0⟩
  · have hnowrap : (reg s r).toNat + 1 < 2 ^ 16 := by omega
    rw [increment_of_lt_ceiling (by rw [hceiling]; exact hc), if_neg hc, decide_eq_false hc,
      reg_setReg_plain h]
    exact ⟨rfl, BitVec.toNat_add_of_lt hnowrap, changedOnly_setReg_plain h s _⟩

/-- A counts through all 16 bits and overflows from 0xFFFF alone. -/
theorem increment_A (s : State) :
    (increment s slotA).2 = decide (reg s slotA = 0xFFFF) ∧
    (reg (increment s slotA).1 slotA).toNat = ((reg s slotA).toNat + 1) % 0x10000 := by
  have hreg : ∀ v, reg (setReg s slotA v) slotA = v := fun v =>
    reg_setReg_same s slotA v (by decide) (by decide)
  by_cases hc : reg s slotA = 0xFFFF
  · rw [increment_of_ceiling_le (by rw [hc]; decide), hreg, hc]
    exact ⟨rfl, rfl⟩
  · have hlt : ¬ceiling slotA ≤ reg s slotA := fun hle => hc (by
      have h1 : 0xFFFF ≤ (reg s slotA).toNat := hle
      have h2 : (reg s slotA).toNat < 0x10000 := (reg s slotA).isLt
      exact BitVec.eq_of_toNat_eq (by simp; omega))
    rw [increment_of_lt_ceiling hlt, hreg, decide_eq_false hc, BitVec.toNat_add]
    exact ⟨rfl, rfl⟩

/-- L at 077777 is below its ceiling, and the 15-bit store drops the carry (U7). -/
theorem increment_L_of_mask {s : State} (h : reg s slotL = 0o77777) :
    (increment s slotL).2 = false ∧ reg (increment s slotL).1 slotL = 0 := by
  rw [increment_of_lt_ceiling (by rw [h]; decide),
    reg_setReg_same s slotL _ (by decide) (by decide), h]
  exact ⟨rfl, by decide⟩

/-- Settles O10: the plain slots, A, and L at its mask. -/
theorem incrementWrapsAtTheCeiling : Obligations.IncrementWrapsAtTheCeiling :=
  ⟨fun s _ h => increment_plain s h, increment_A, fun _ => increment_L_of_mask⟩

/-! ### The overflow state of A (R45) -/

/-- Bits 15 and 14 cut the 16-bit values into quarters. -/
theorem topBits_eq (a : Reg) :
    a.getLsbD 15 = decide (0x8000 ≤ a.toNat) ∧
    a.getLsbD 14 = decide (a.toNat / 0x4000 % 2 = 1) := by
  have ha : a.toNat < 0x10000 := a.isLt
  simp only [BitVec.getLsbD, Nat.testBit_eq_decide_div_mod_eq, decide_eq_decide]
  exact ⟨by omega, trivial⟩

/-- The overflow state by value: positive in the second quarter, negative in the third. -/
theorem ovf_eq (a : Reg) :
    ovf a = if 0x4000 ≤ a.toNat ∧ a.toNat < 0x8000 then .positive
      else if 0x8000 ≤ a.toNat ∧ a.toNat < 0xC000 then .negative else .none := by
  obtain ⟨h15, h14⟩ := topBits_eq a
  have ha : a.toNat < 0x10000 := a.isLt
  unfold ovf
  rw [h15, h14]
  split_ifs with hpos hneg
  · have hlow : ¬0x8000 ≤ a.toNat := by omega
    have hodd : a.toNat / 0x4000 % 2 = 1 := by omega
    simp [hlow, hodd]
  · have heven : ¬a.toNat / 0x4000 % 2 = 1 := by omega
    simp [hneg.1, heven]
  · have hsame : 0x8000 ≤ a.toNat ↔ a.toNat / 0x4000 % 2 = 1 := by omega
    rw [decide_eq_decide.mpr hsame]
    cases decide (a.toNat / 0x4000 % 2 = 1) <;> rfl

/-- Settles O11: the three answers are the quarters of the 16-bit values. -/
theorem overflowIsTheTwoTopBits : Obligations.OverflowIsTheTwoTopBits := by
  intro a
  simp only [ovf_eq, BitVec.le_def, BitVec.lt_def]
  split_ifs <;> simp <;> omega

end Sys2Proof.Proofs

/-! ## Canonical memories (log entry 3) -/

namespace Sys2Proof.Proofs

open Sys2Proof.Machine

/-- A rising memory without unlisted values lists exactly the bytes that differ from them. -/
theorem mem_iff_readByte {m : Memory} (hrising : m.Pairwise (fun c d => c.1 < d.1))
    (hlisted : ∀ c ∈ m, c.2 ≠ Memory.unlisted) (a : Nat) (v : Byte) :
    (a, v) ∈ m ↔ m.readByte a = v ∧ v ≠ Memory.unlisted := by
  induction m with
  | nil =>
    rw [Memory.readByte_nil]
    exact iff_of_false (by simp) fun h => h.2 h.1.symm
  | cons e m ih =>
    obtain ⟨b, w⟩ := e
    obtain ⟨habove, hrising⟩ := List.pairwise_cons.mp hrising
    have ih := ih hrising fun c hc => hlisted c (List.mem_cons_of_mem _ hc)
    rw [Memory.readByte_cons, List.mem_cons]
    by_cases hba : b = a
    · have hnot : (a, v) ∉ m := fun hm => absurd (habove _ hm) (by simp [hba])
      have hw : w ≠ Memory.unlisted := hlisted (b, w) List.mem_cons_self
      subst hba
      rw [if_pos rfl, or_iff_left hnot, Prod.mk.injEq]
      exact ⟨fun h => ⟨h.2.symm, h.2 ▸ hw⟩, fun h => ⟨rfl, h.1.symm⟩⟩
    · rw [if_neg hba, ← ih]
      exact or_iff_right fun h => hba (congrArg Prod.fst h).symm

/-- Canonical memories that read the same at every byte are the same list. -/
theorem eq_of_readByte_eq {n : Nat} {m m' : Memory} (hm : m.wf n) (hm' : m'.wf n)
    (h : ∀ a, m.readByte a = m'.readByte a) : m = m' := by
  have hmem : ∀ c, c ∈ m ↔ c ∈ m' := fun ⟨a, v⟩ => by
    rw [mem_iff_readByte hm.1 (fun c hc => (hm.2 c hc).1),
      mem_iff_readByte hm'.1 (fun c hc => (hm'.2 c hc).1), h]
  have nodup : ∀ l : Memory, l.Pairwise (fun c d => c.1 < d.1) → l.Nodup := fun l hl =>
    hl.imp fun hcd heq => absurd (congrArg Prod.fst heq) (Nat.ne_of_lt hcd)
  have hperm : m.Perm m' :=
    (List.perm_ext_iff_of_nodup (nodup m hm.1) (nodup m' hm'.1)).mpr hmem
  exact hperm.eq_of_pairwise (fun c d _ _ hcd hdc => absurd hcd (Nat.lt_asymm hdc)) hm.1 hm'.1

/-- A canonical memory reads an unlisted byte outside its storage. -/
theorem readByte_outside {n : Nat} {m : Memory} (hm : m.wf n) {a : Nat} (ha : 2 * n ≤ a) :
    m.readByte a = Memory.unlisted := by
  by_contra hne
  have hmem : (a, m.readByte a) ∈ m :=
    (mem_iff_readByte hm.1 (fun c hc => (hm.2 c hc).1) a _).mpr ⟨rfl, hne⟩
  obtain ⟨-, hlt, -⟩ := hm.2 _ hmem
  omega

/-- The high byte of a word of a canonical memory has a clear top bit. -/
theorem readByte_high_lt {n : Nat} {m : Memory} (hm : m.wf n) (i : Nat) :
    (m.readByte (2 * i)).toNat < 0x80 := by
  by_cases hu : m.readByte (2 * i) = Memory.unlisted
  · rw [hu]; decide
  · have hmem : (2 * i, m.readByte (2 * i)) ∈ m :=
      (mem_iff_readByte hm.1 (fun c hc => (hm.2 c hc).1) _ _).mpr ⟨rfl, hu⟩
    obtain ⟨-, -, hlt⟩ := hm.2 _ hmem
    exact hlt (Nat.mul_mod_right 2 i)

/-- A word of a canonical memory by value: its high byte has no bit to lose. -/
theorem toNat_readWord {n : Nat} {m : Memory} (hm : m.wf n) (i : Nat) :
    (m.readWord i).toNat = (m.readByte (2 * i)).toNat * 256 + (m.readByte (2 * i + 1)).toNat := by
  have hhi := readByte_high_lt hm i
  have hlo : (m.readByte (2 * i + 1)).toNat < 256 := (m.readByte (2 * i + 1)).isLt
  rw [Memory.readWord, BitVec.toNat_setWidth, BitVec.toNat_append,
    ← Nat.shiftLeft_add_eq_or_of_lt hlo, Nat.shiftLeft_eq]
  exact Nat.mod_eq_of_lt (by omega)

/-- Equal words of canonical memories have equal bytes. -/
theorem readByte_eq_of_readWord_eq {n : Nat} {m m' : Memory} (hm : m.wf n) (hm' : m'.wf n) {i : Nat}
    (h : m.readWord i = m'.readWord i) :
    m.readByte (2 * i) = m'.readByte (2 * i) ∧ m.readByte (2 * i + 1) = m'.readByte (2 * i + 1) := by
  have hword := congrArg BitVec.toNat h
  rw [toNat_readWord hm, toNat_readWord hm'] at hword
  have hlo : (m.readByte (2 * i + 1)).toNat < 256 := BitVec.isLt _
  have hlo' : (m'.readByte (2 * i + 1)).toNat < 256 := BitVec.isLt _
  constructor <;> exact BitVec.eq_of_toNat_eq (by omega)

/-- Settles O16: equal words have equal bytes, outside the storage both memories read as unlisted,
and the bytes determine a canonical list. -/
theorem equalReadsMeanEqualMemories : Obligations.EqualReadsMeanEqualMemories := by
  intro n m m' hm hm' h
  refine eq_of_readByte_eq hm hm' fun a => ?_
  by_cases ha : a < 2 * n
  · obtain ⟨hhigh, hlow⟩ := readByte_eq_of_readWord_eq hm hm' (h (a / 2) (by omega))
    have hparity : a = 2 * (a / 2) ∨ a = 2 * (a / 2) + 1 := by omega
    rcases hparity with e | e
    · rw [e]; exact hhigh
    · rw [e]; exact hlow
  · rw [readByte_outside hm (by omega), readByte_outside hm' (by omega)]

end Sys2Proof.Proofs

/-! ## What phase 1 of a step leaves, and what a whole step keeps -/

namespace Sys2Proof.Proofs

open Sys2Proof.Machine

/-- Phase 1 of a step from `s` (R140): it took `n` MCT and left `u`, by the top sequence or by the
fetched instruction. -/
def Phase1Ends (s : State) (n : Nat) (u : State) : Prop :=
  (∃ q rest, s.seqStack = q :: rest ∧ n = seqTiming q ∧ u = runSeq q (popped s rest)) ∨
  (s.seqStack = [] ∧ ∃ i, fetchInstr s = .ok i ∧ exec i (advanceZ s) = .next u ∧ n = timing i)

/-- A step that answers a next state is a phase 1 followed by the end of the step. -/
theorem step_next_phases {s t : State} (h : step s = .next t) :
    s.fault = none ∧ ∃ n u, Phase1Ends s n u ∧ finishStep n u = .next t := by
  obtain ⟨hf, ⟨q, rest, hs, hend⟩ | ⟨hs, i, u, hi, he, hend⟩⟩ := step_next s t h
  · exact ⟨hf, _, _, .inl ⟨q, rest, hs, rfl, rfl⟩, hend⟩
  · exact ⟨hf, _, _, .inr ⟨hs, i, hi, he, rfl⟩, hend⟩

/-- Phase 1 takes 1 to 3 MCT. -/
theorem Phase1Ends.timing_bounds {s u : State} {n : Nat} (h : Phase1Ends s n u) :
    1 ≤ n ∧ n ≤ 3 := by
  rcases h with ⟨q, rest, -, rfl, -⟩ | ⟨-, i, -, -, rfl⟩
  · simp [seqTiming]
  · exact Machine.timing_bounds i

/-- Phase 1 writes no fixed memory, and leaves the super-bit, the timers, the fault record and the
parameters alone. -/
theorem Phase1Ends.control {s u : State} {n : Nat} (h : Phase1Ends s n u) :
    u.fixed = s.fixed ∧ u.sb = s.sb ∧ u.timers = s.timers ∧ u.fault = s.fault ∧
      u.params = s.params := by
  rcases h with ⟨q, rest, -, -, rfl⟩ | ⟨-, i, -, he, -⟩
  · obtain ⟨hsb, -, htimers, -, -, hfixed, hfault, hparams, -⟩ := runSeq_control q (popped s rest)
    exact ⟨hfixed, hsb, htimers, hfault, hparams⟩
  · obtain ⟨hsb, -, -, htimers, -, hfixed, hfault, hparams⟩ := exec_control i (advanceZ s) u he
    simp [hsb, htimers, hfixed, hfault, hparams]

/-- Phase 1 pops the top sequence and pushes at most PINC TIME2, the child of PINC TIME1; an
instruction runs on an empty stack and leaves it empty. -/
theorem Phase1Ends.seqStack {s u : State} {n : Nat} (h : Phase1Ends s n u) :
    (s.seqStack = [] ∧ u.seqStack = []) ∨
    ∃ q rest, s.seqStack = q :: rest ∧ n = 1 ∧
      (u.seqStack = rest ∨ (q = .pincTime1 ∧ u.seqStack = .pincTime2 :: rest)) := by
  rcases h with ⟨q, rest, hs, rfl, rfl⟩ | ⟨hs, i, -, he, -⟩
  · obtain ⟨-, -, -, -, -, -, -, -, -, hstack⟩ := runSeq_control q (popped s rest)
    exact .inr ⟨q, rest, hs, rfl, hstack⟩
  · obtain ⟨-, -, hstack, -⟩ := exec_control i (advanceZ s) u he
    exact .inl ⟨hs, by simp [hstack, hs]⟩

/-- A step that answers a next state keeps fixed memory, the super-bit, the fault record and the
parameters. -/
theorem step_control {s t : State} (h : step s = .next t) :
    t.fixed = s.fixed ∧ t.sb = s.sb ∧ t.fault = s.fault ∧ t.params = s.params := by
  obtain ⟨-, n, u, hu, hend⟩ := step_next_phases h
  obtain ⟨hfixed, hsb, -, hfault, hparams⟩ := hu.control
  obtain ⟨hsb', -, -, -, -, hfixed', hfault', hparams'⟩ := finishStep_control n u t hend
  exact ⟨hfixed'.trans hfixed, hsb'.trans hsb, hfault'.trans hfault, hparams'.trans hparams⟩

/-- Settles O54: neither phase 1 nor the end of a step writes fixed memory, the super-bit or the
parameters. -/
theorem stepsNeverWriteFixedMemory : Obligations.StepsNeverWriteFixedMemory := by
  intro s t h
  obtain ⟨hfixed, hsb, -, hparams⟩ := step_control h
  exact ⟨hfixed, hsb, hparams⟩

/-! ### The fault record (R46, R221) -/

/-- A step in a faulted state answers the fault that stands. -/
theorem step_of_fault {s : State} {f : Fault} (h : s.fault = some f) : step s = .fault f := by
  simp [step, cycle, h]

/-- A faulted state is left as it is. -/
theorem settle_of_fault {s : State} {f : Fault} (h : s.fault = some f) : settle s = s := by
  simp [settle, h]

/-- A faulting step of a running machine leaves the state it had reached, with the fault recorded. -/
theorem settle_of_step_fault {s : State} {f : Fault} (hs : s.fault = none)
    (h : step s = .fault f) : settle s = raise (reached exec s) f := by
  simp [settle, hs, h]

/-- No number of steps changes a faulted state. -/
theorem runFuel_of_fault {s : State} {f : Fault} (n : Nat) (h : s.fault = some f) :
    runFuel n s = s := by
  induction n with
  | zero => rfl
  | succ n ih => rw [runFuel, settle_of_fault h, ih]

/-- Settles O37: the fault stands in a faulted state, a step that answers a state had none and
leaves none, and `settle` records the fault of a step. -/
theorem faultIsNeverCleared : Obligations.FaultIsNeverCleared := by
  refine ⟨fun s f n hf => ⟨step_of_fault hf, runFuel_of_fault n hf⟩, fun s t h => ?_,
    fun s f h => ?_⟩
  · have hs : s.fault = none := (step_next_phases h).1
    obtain ⟨-, -, hfault, -⟩ := step_control h
    exact ⟨hs, hfault.trans hs⟩
  · cases hs : s.fault with
    | none => rw [settle_of_step_fault hs h, raise_fault]
    | some g =>
      have hgf : g = f := Host.Outcome.fault.inj ((step_of_fault hs).symm.trans h)
      rw [settle_of_fault hs, hs, hgf]

/-! ### Registers, memories and pending indices stay well-formed -/

/-- The part of the invariant about stored data: registers within their masks, canonical memories,
and a set of pending indices. -/
abbrev DataWf (s : State) : Prop := s.RegsWf ∧ s.MemWf ∧ s.pending.Pairwise (· < ·)

theorem dataWf_congr {s t : State} (hregs : t.regs = s.regs) (herasable : t.erasable = s.erasable)
    (hfixed : t.fixed = s.fixed) (hpending : t.pending = s.pending) (h : DataWf s) : DataWf t :=
  ⟨regsWf_congr s t hregs h.1, by simpa only [State.MemWf, herasable, hfixed] using h.2.1,
    hpending ▸ h.2.2⟩

theorem dataWf_setReg {s : State} (a : Nat) (v : Reg) (h : DataWf s) : DataWf (setReg s a v) :=
  ⟨regsWf_setReg s a v h.1, memWf_setReg s a v h.2.1, by simpa using h.2.2⟩

theorem dataWf_memWrite {s t : State} {a : Nat} {v : Reg} (ht : memWrite s a v = .ok t)
    (h : DataWf s) : DataWf t := by
  obtain ⟨-, -, -, hpending, -⟩ := memWrite_sameControl s t a v ht
  exact ⟨regsWf_memWrite s t a v h.1 ht, memWf_memWrite s t a v h.2.1 ht, hpending ▸ h.2.2⟩

theorem dataWf_advanceZ {s : State} (h : DataWf s) : DataWf (advanceZ s) :=
  dataWf_setReg slotZ _ h

theorem dataWf_increment {s : State} (r : Nat) (h : DataWf s) : DataWf (increment s r).1 := by
  unfold increment
  split <;> exact dataWf_setReg r _ h

theorem dataWf_post {s : State} (i : Nat) (h : DataWf s) : DataWf (post s i) :=
  ⟨h.1, h.2.1, insertIndex_rising i s.pending h.2.2⟩

theorem dataWf_loadA {f : Reg → Reg} {k : Addr} {s t : State} (ht : loadA f k s = .next t)
    (h : DataWf s) : DataWf t := by
  obtain ⟨v, -, ⟨-, hw⟩ | ⟨-, rfl⟩⟩ := loadA_next f k s t ht
  · exact dataWf_memWrite hw (dataWf_setReg slotA (f v) h)
  · exact dataWf_setReg slotA (f v) h

theorem dataWf_skipOnOverflow {s : State} (h : DataWf s) : DataWf (skipOnOverflow s) := by
  unfold skipOnOverflow
  split
  · exact dataWf_advanceZ (dataWf_setReg slotA _ h)
  · exact dataWf_advanceZ (dataWf_setReg slotA _ h)
  · exact h

/-- Every instruction is made of register writes and writes of the redirected address space. -/
theorem dataWf_exec {i : Instr} {s t : State} (ht : exec i s = .next t) (h : DataWf s) :
    DataWf t := by
  cases i with
  | relint => cases ht; exact dataWf_congr rfl rfl rfl rfl h
  | inhint => cases ht; exact dataWf_congr rfl rfl rfl rfl h
  | tcf k => cases ht; exact dataWf_setReg slotZ _ h
  | ca k => exact dataWf_loadA ht h
  | cs k => exact dataWf_loadA ht h
  | dxch k =>
    obtain ⟨m0, m1, s1, s2, -, -, h1, h2, rfl⟩ := execDxch_next k s t ht
    have hstored : DataWf s2 := dataWf_memWrite h2 (dataWf_memWrite h1 h)
    exact dataWf_setReg slotL m1 (dataWf_setReg slotA m0 hstored)
  | ts k =>
    obtain ⟨s1, h1, rfl⟩ := execTs_next k s t ht
    exact dataWf_skipOnOverflow (dataWf_memWrite h1 h)

theorem dataWf_pincPosting {s : State} (a i : Nat) (h : DataWf s) :
    DataWf (pincPosting s a i).1 := by
  have hinc := dataWf_increment a h
  unfold pincPosting
  dsimp only
  split
  · exact dataWf_post i hinc
  · exact hinc

/-- Every sequence is an increment, and at most a posting. -/
theorem dataWf_executeSeq {s : State} (q : SeqName) (h : DataWf s) :
    DataWf (executeSeq q s).1 := by
  cases q with
  | pincTime1 => exact dataWf_increment _ h
  | pincTime2 => exact dataWf_increment _ h
  | pincTime3 => exact dataWf_pincPosting _ _ h
  | pincTime4 => exact dataWf_pincPosting _ _ h
  | pincTime5 => exact dataWf_pincPosting _ _ h

theorem dataWf_runSeq {s : State} (q : SeqName) (h : DataWf s) : DataWf (runSeq q s) := by
  have hq := dataWf_executeSeq q h
  unfold runSeq
  split
  case h_1 t he => rwa [he] at hq
  case h_2 t child he =>
    rw [he] at hq
    exact dataWf_congr rfl rfl rfl rfl hq

theorem Phase1Ends.dataWf {s u : State} {n : Nat} (hu : Phase1Ends s n u) (h : DataWf s) :
    DataWf u := by
  rcases hu with ⟨q, rest, -, -, rfl⟩ | ⟨-, i, -, he, -⟩
  · exact dataWf_runSeq q (dataWf_congr rfl rfl rfl rfl h)
  · exact dataWf_exec he (dataWf_advanceZ h)

theorem dataWf_deliver {s t : State} {i : Nat} (ht : deliver s i = .ok t) (h : DataWf s) :
    DataWf t := by
  obtain ⟨w, -, rfl⟩ := deliver_ok s t i ht
  have hsave : DataWf (saveZ s) := dataWf_setReg _ _ h
  have hbrupt : DataWf (setReg (saveZ s) s.params.addrBrupt w) := dataWf_setReg _ w hsave
  obtain ⟨hregs, hmem, -⟩ := dataWf_setReg slotZ (vector i) hbrupt
  exact ⟨hregs, hmem, h.2.2.filter _⟩

/-- The end of a step writes registers and drops a pending index. -/
theorem dataWf_finishStep {n : Nat} {s t : State} (ht : finishStep n s = .next t) (h : DataWf s) :
    DataWf t := by
  have h2 : DataWf (phase2 n s) :=
    dataWf_congr (phase2_regs n s) (phase2_erasable n s) (phase2_fixed n s) (phase2_pending n s) h
  rcases deliverInterrupt_ok _ _ (finishStep_next n s t ht) with ⟨-, rfl⟩ | ⟨i, -, hd⟩
  · exact h2
  · exact dataWf_deliver hd h2

/-! ### The timer accumulators stay in range -/

/-- Phase 2 advances each accumulator by the step's timing. -/
theorem phase2_timers (n : Nat) (s : State) :
    (phase2 n s).timers =
      ⟨(tick s.params.timerInterval n s.timers.time1).1,
        (tick s.params.timerInterval n s.timers.time3).1,
        (tick s.params.timerInterval n s.timers.time4).1,
        (tick s.params.timerInterval n s.timers.time5).1⟩ :=
  advanceTimers_timers _ n

/-- Phase 2 of a step no longer than the interval keeps the accumulators in range. -/
theorem timersWf_phase2 {s : State} {n : Nat} (hn : n ≤ s.params.timerInterval)
    (h : s.TimersWf) : (phase2 n s).TimersWf := by
  obtain ⟨h1, h3, h4, h5⟩ := h
  simp only [State.TimersWf, phase2_timers, phase2_params]
  exact ⟨accOk_tick _ _ _ hn h1, accOk_tick _ _ _ hn h3, accOk_tick _ _ _ hn h4,
    accOk_tick _ _ _ hn h5⟩

/-- Settles O53: the data stay well-formed through phase 1 and the end of the step, and a step takes
at most 3 MCT, which no sensible interval falls short of. -/
theorem stepKeepsTheInvariant : Obligations.StepKeepsTheInvariant := by
  rintro s t ⟨hvalid, hregs, hmem, hpending, htimers⟩ h
  obtain ⟨-, n, u, hu, hend⟩ := step_next_phases h
  have hdata : DataWf t := dataWf_finishStep hend (hu.dataWf ⟨hregs, hmem, hpending⟩)
  obtain ⟨-, -, hut, -, hup⟩ := hu.control
  obtain ⟨-, -, htt, -, -, -, -, htp⟩ := finishStep_control n u t hend
  have hn : n ≤ u.params.timerInterval := by
    obtain ⟨-, -, -, -, hinterval, -⟩ := hvalid
    exact hup ▸ hu.timing_bounds.2.trans hinterval
  have hut' : u.TimersWf := by simpa only [State.TimersWf, hut, hup] using htimers
  have ht : t.TimersWf := by
    simpa only [State.TimersWf, htt, htp, phase2_params] using timersWf_phase2 hn hut'
  exact ⟨by rwa [htp, hup], hdata.1, hdata.2.1, hdata.2.2, ht⟩

end Sys2Proof.Proofs

/-! ## The timer phases and the bound on the sequence stack -/

namespace Sys2Proof.Proofs

open Sys2Proof.Machine

/-! ### Phase 2 on the stack (R237, R240) -/

theorem tick_wrapped (interval n : Nat) (acc : Int) :
    (tick interval n acc).2 = decide ((interval : Int) ≤ acc + n) := by
  rcases tick_cases interval n acc with ⟨h, he⟩ | ⟨h, he⟩ <;> simp [he] <;> omega

theorem tick_acc (interval n : Nat) (acc : Int) :
    (tick interval n acc).1 = if (interval : Int) ≤ acc + n then acc + n - interval else acc + n := by
  rcases tick_cases interval n acc with ⟨h, he⟩ | ⟨h, he⟩ <;> simp [he] <;> omega

/-- The sequences that phase 2 pushes for an advance of `n`, the last pushed first. -/
def rolledOver (s : State) (n : Nat) : List SeqName :=
  (if (s.params.timerInterval : Int) ≤ s.timers.time5 + n then [.pincTime5] else []) ++
  (if (s.params.timerInterval : Int) ≤ s.timers.time4 + n then [.pincTime4] else []) ++
  (if (s.params.timerInterval : Int) ≤ s.timers.time3 + n then [.pincTime3] else []) ++
  (if (s.params.timerInterval : Int) ≤ s.timers.time1 + n then [.pincTime1] else [])

theorem phase2_seqStack (s : State) (n : Nat) :
    (phase2 n s).seqStack = rolledOver s n ++ s.seqStack := by
  simp only [phase2, advanceTimers, rolledOver, pushIf_seqStack, tick_wrapped, decide_eq_true_eq]
  split_ifs <;> rfl

/-! ### The phases of the four timers (R42) -/

/-- The timers' part of `State.TimerPhases`. -/
def InPhase (τ : Timers) : Prop :=
  0 ≤ τ.time1 ∧ τ.time1 < 893 ∧ τ.time3 = τ.time1 ∧
  (τ.time4 = τ.time1 - 669 ∨ (τ.time4 = τ.time1 + 224 ∧ τ.time1 < 669)) ∧
  (τ.time5 = τ.time1 - 446 ∨ (τ.time5 = τ.time1 + 447 ∧ τ.time1 < 446))

theorem timerPhases_iff (s : State) :
    s.TimerPhases ↔
      s.params.timerInterval = 893 ∧ InPhase s.timers ∧ s.StackFollowsRollover := by
  simp only [State.TimerPhases, InPhase, and_assoc]

/-- The phases speak of the parameters, the timers and the stack alone. -/
theorem timerPhases_congr {s t : State} (hparams : t.params = s.params)
    (htimers : t.timers = s.timers) (hstack : t.seqStack = s.seqStack) (h : s.TimerPhases) :
    t.TimerPhases := by
  simpa only [State.TimerPhases, State.StackFollowsRollover, hparams, htimers, hstack] using h

/-- What phase 2 of a step does to timers in phase: at most one of TIME1 (with TIME3), TIME4 and
TIME5 rolls over, and it is then at most 2 MCT past it. -/
inductive Advance (s t : State) (n : Nat) : Prop
  | quiet (rolled : rolledOver s n = []) (time1 : t.timers.time1 = s.timers.time1 + n)
  | time1 (rolled : rolledOver s n = [.pincTime3, .pincTime1]) (before : 890 ≤ s.timers.time1)
      (after : t.timers.time1 ≤ 2)
  | time4 (rolled : rolledOver s n = [.pincTime4]) (before : 890 ≤ s.timers.time4)
      (after : 0 ≤ t.timers.time4 ∧ t.timers.time4 ≤ 2)
  | time5 (rolled : rolledOver s n = [.pincTime5]) (before : 890 ≤ s.timers.time5)
      (after : 0 ≤ t.timers.time5 ∧ t.timers.time5 ≤ 2)

/-- Timers in phase stay in phase. -/
theorem inPhase_phase2 {s : State} {n : Nat} (hi : s.params.timerInterval = 893) (hn : n ≤ 3)
    (h : InPhase s.timers) : InPhase (phase2 n s).timers := by
  obtain ⟨h0, h1, h3, h4, h5⟩ := h
  simp only [InPhase, phase2_timers, tick_acc, hi, h3]
  refine ⟨?_, ?_, trivial, ?_, ?_⟩ <;> omega

/-- The offsets keep the rollovers of timers in phase apart. -/
theorem advance_phase2 {s : State} {n : Nat} (hi : s.params.timerInterval = 893) (hn : n ≤ 3)
    (h : InPhase s.timers) : Advance s (phase2 n s) n := by
  obtain ⟨h0, h1, h3, h4, h5⟩ := h
  by_cases r1 : 893 ≤ s.timers.time1 + n
  · refine .time1 ?_ (by omega) ?_
    · simp [rolledOver, hi, h3, r1, show ¬893 ≤ s.timers.time4 + n by omega,
        show ¬893 ≤ s.timers.time5 + n by omega]
    · simp only [phase2_timers, tick_acc, hi]; omega
  by_cases r4 : 893 ≤ s.timers.time4 + n
  · refine .time4 ?_ (by omega) ?_
    · simp [rolledOver, hi, h3, r1, r4, show ¬893 ≤ s.timers.time5 + n by omega]
    · simp only [phase2_timers, tick_acc, hi]; omega
  by_cases r5 : 893 ≤ s.timers.time5 + n
  · refine .time5 ?_ (by omega) ?_
    · simp [rolledOver, hi, h3, r1, r4, r5]
    · simp only [phase2_timers, tick_acc, hi]; omega
  · refine .quiet ?_ ?_
    · simp [rolledOver, hi, h3, r1, r4, r5]
    · simp only [phase2_timers, tick_acc, hi]; omega

/-! ### The stack between steps (R40, R41) -/

/-- While the stack is not empty, every timer is far from its next rollover. -/
theorem far_of_seqStack_ne_nil {s : State} (hp : InPhase s.timers) (hs : s.StackFollowsRollover)
    (hne : s.seqStack ≠ []) :
    s.timers.time1 < 890 ∧ s.timers.time4 < 890 ∧ s.timers.time5 < 890 := by
  obtain ⟨h0, h1, -, h4, h5⟩ := hp
  rcases hs with hnil | ⟨-, h⟩ | ⟨-, h⟩ | ⟨-, h⟩ | ⟨-, h⟩ | ⟨-, h⟩
  · exact absurd hnil hne
  all_goals omega

/-- A sequence step on which no timer rolls over: the top is popped, PINC TIME1 may chain PINC
TIME2, and TIME1 counts the step's 1 MCT. -/
theorem stackFollowsRollover_of_popped {s t : State} {q : SeqName} {rest : List SeqName}
    (hs : s.StackFollowsRollover) (hq : s.seqStack = q :: rest)
    (ht : t.seqStack = rest ∨ (q = .pincTime1 ∧ t.seqStack = .pincTime2 :: rest))
    (h1 : t.timers.time1 = s.timers.time1 + 1) : t.StackFollowsRollover := by
  have done : t.seqStack = [] → t.StackFollowsRollover := .inl
  unfold State.StackFollowsRollover at hs
  rw [hq] at hs
  simp only [List.cons.injEq] at hs
  rcases hs with h | ⟨⟨rfl, rfl⟩, h⟩ | ⟨⟨rfl, rfl⟩, h⟩ | ⟨⟨rfl, rfl⟩, -⟩ | ⟨⟨rfl, rfl⟩, -⟩ |
    ⟨⟨rfl, rfl⟩, -⟩
  · cases h
  · have ht' : t.seqStack = [.pincTime1] := by simpa using ht
    exact .inr (.inr (.inl ⟨ht', by omega⟩))
  · rcases ht with ht | ⟨-, ht⟩
    · exact done ht
    · exact .inr (.inr (.inr (.inl ⟨ht, by omega⟩)))
  all_goals exact done (by simpa using ht)

/-- The stack that a rollover leaves when it was empty before. -/
theorem Advance.stackFollowsRollover {s t : State} {n : Nat} (h : Advance s t n)
    (ht : t.seqStack = rolledOver s n) : t.StackFollowsRollover := by
  cases h with
  | quiet rolled => exact .inl (ht.trans rolled)
  | time1 rolled _ after => exact .inr (.inl ⟨ht.trans rolled, after⟩)
  | time4 rolled _ after => exact .inr (.inr (.inr (.inr (.inl ⟨ht.trans rolled, after⟩))))
  | time5 rolled _ after => exact .inr (.inr (.inr (.inr (.inr ⟨ht.trans rolled, after⟩))))

/-- An advance far from every rollover only counts. -/
theorem Advance.quiet_of_far {s t : State} {n : Nat} (h : Advance s t n)
    (far : s.timers.time1 < 890 ∧ s.timers.time4 < 890 ∧ s.timers.time5 < 890) :
    rolledOver s n = [] ∧ t.timers.time1 = s.timers.time1 + n := by
  cases h with
  | quiet rolled time1 => exact ⟨rolled, time1⟩
  | time1 _ before => omega
  | time4 _ before => omega
  | time5 _ before => omega

/-- Phases 1 and 2 of a step keep the timer phases. -/
theorem Phase1Ends.timerPhases {s u : State} {n : Nat} (hu : Phase1Ends s n u)
    (h : s.TimerPhases) : (phase2 n u).TimerPhases := by
  obtain ⟨hi, hp, hs⟩ := (timerPhases_iff s).mp h
  obtain ⟨-, -, htimers, -, hparams⟩ := hu.control
  have hn : n ≤ 3 := hu.timing_bounds.2
  have hup : InPhase u.timers := htimers ▸ hp
  have hui : u.params.timerInterval = 893 := hparams ▸ hi
  have hadv : Advance u (phase2 n u) n := advance_phase2 hui hn hup
  refine (timerPhases_iff _).mpr ⟨by rwa [phase2_params], inPhase_phase2 hui hn hup, ?_⟩
  have hstack : (phase2 n u).seqStack = rolledOver u n ++ u.seqStack := phase2_seqStack u n
  rcases hu.seqStack with ⟨-, hnil⟩ | ⟨q, rest, hq, rfl, htop⟩
  · exact hadv.stackFollowsRollover (by rw [hstack, hnil, List.append_nil])
  · have far := far_of_seqStack_ne_nil hp hs (by simp [hq])
    obtain ⟨hrolled, h1⟩ := hadv.quiet_of_far (htimers ▸ far)
    rw [hrolled, List.nil_append] at hstack
    exact stackFollowsRollover_of_popped hs hq (by rwa [hstack]) (by rw [h1, htimers]; rfl)

/-- In phase the stack holds at most the sequences of TIME1 and TIME3. -/
theorem seqStack_length_le_two {s : State} (h : s.TimerPhases) : s.seqStack.length ≤ 2 := by
  obtain ⟨-, -, hs⟩ := (timerPhases_iff s).mp h
  rcases hs with h | ⟨h, -⟩ | ⟨h, -⟩ | ⟨h, -⟩ | ⟨h, -⟩ | ⟨h, -⟩ <;> simp [h]

/-- A step keeps the timer phases: interrupt entry touches neither timers nor stack. -/
theorem timerPhases_step {s t : State} (h : s.TimerPhases) (ht : step s = .next t) :
    t.TimerPhases := by
  obtain ⟨-, n, u, hu, hend⟩ := step_next_phases ht
  obtain ⟨-, hstack, htimers, -, -, -, -, hparams⟩ := finishStep_control n u t hend
  exact timerPhases_congr (by rw [hparams, phase2_params]) htimers hstack (hu.timerPhases h)

/-- Settles O58: the phases are kept step by step, and bound the stack by two. -/
theorem stepKeepsTheTimerPhases : Obligations.StepKeepsTheTimerPhases :=
  ⟨fun _ _ => timerPhases_step, fun _ => seqStack_length_le_two⟩

/-! ### Runs, the faulted state included -/

/-- What a step that raises had reached (R223): timers and stack are those of the state before it,
or those that phases 1 and 2 left. -/
theorem reached_cases (s : State) :
    ((reached exec s).params = s.params ∧ (reached exec s).timers = s.timers ∧
      (reached exec s).seqStack = s.seqStack) ∨
    ∃ n u, Phase1Ends s n u ∧ reached exec s = saveZ (phase2 n u) := by
  unfold reached
  cases hs : s.seqStack with
  | cons q rest => exact .inr ⟨_, _, .inl ⟨q, rest, hs, rfl, rfl⟩, rfl⟩
  | nil =>
    cases hi : fetchInstr s with
    | error f => simp [hs]
    | ok i =>
      cases he : exec i (advanceZ s) with
      | next u => exact .inr ⟨_, u, .inr ⟨hs, i, hi, he, rfl⟩, by simp only [he]⟩
      | fault f => simp [he, hs]
      | refused r => simp [he, hs]

theorem timerPhases_reached {s : State} (h : s.TimerPhases) : (reached exec s).TimerPhases := by
  rcases reached_cases s with ⟨hparams, htimers, hstack⟩ | ⟨n, u, hu, he⟩
  · exact timerPhases_congr hparams htimers hstack h
  · rw [he]
    exact timerPhases_congr (saveZ_params _) (saveZ_timers _) (saveZ_seqStack _) (hu.timerPhases h)

theorem timerPhases_settle {s : State} (h : s.TimerPhases) : (settle s).TimerPhases := by
  unfold settle
  split
  · exact h
  · split
    case h_1 t ht => exact timerPhases_step h ht
    case h_2 f _ => exact timerPhases_congr rfl rfl rfl (timerPhases_reached h)
    case h_3 => exact h

/-- Every state of a run that starts in phase is in phase. -/
theorem timerPhases_runFuel (n : Nat) {s : State} (h : s.TimerPhases) :
    (runFuel n s).TimerPhases := by
  induction n generalizing s with
  | zero => exact h
  | succ n ih => exact ih (timerPhases_settle h)

end Sys2Proof.Proofs

/-! ## Launched machines -/

namespace Sys2Proof.Proofs

open Sys2Proof.Machine

/-! ### The loader keeps fixed memory canonical (R90 to R93) -/

/-- A word of the stream below the loader's limit goes inside the 40 banks. -/
theorem streamLoc_index_lt (format : Config.LoadFormat) {k : Nat} (hk : k < fixedWords) :
    (streamLoc format k).index < fixedWords := by
  simp only [fixedWords] at *
  cases format <;> simp only [streamLoc, streamBank, Loc.index]
  case yaagc => split_ifs <;> omega
  all_goals omega

theorem wf_fixed_feedByte {format : Config.LoadFormat} {l l' : Loader} {b : Byte}
    (hl : l.fixed.wf fixedWords) (h : l.feedByte format b = .ok l') :
    l'.fixed.wf fixedWords := by
  unfold Loader.feedByte at h
  split_ifs at h with hfull
  split at h <;> cases h
  · exact hl
  · exact Memory.writeWord_wf _ _ _ _ hl (streamLoc_index_lt format (by omega))

theorem wf_fixed_feed {format : Config.LoadFormat} {l l' : Loader} {bytes : List Byte}
    (hl : l.fixed.wf fixedWords) (h : l.feed format bytes = .ok l') :
    l'.fixed.wf fixedWords := by
  induction bytes generalizing l with
  | nil => cases h; exact hl
  | cons b bs ih =>
    rw [Loader.feed] at h
    cases hb : l.feedByte format b with
    | error e => simp [hb] at h
    | ok m => rw [hb] at h; exact ih (wf_fixed_feedByte hl hb) h

theorem wf_fixed_feedAll {format : Config.LoadFormat} {l l' : Loader} {calls : List (List Byte)}
    (hl : l.fixed.wf fixedWords) (h : l.feedAll format calls = .ok l') :
    l'.fixed.wf fixedWords := by
  induction calls generalizing l with
  | nil => cases h; exact hl
  | cons c cs ih =>
    rw [Loader.feedAll] at h
    cases hc : l.feed format c with
    | error e => simp [hc] at h
    | ok m => rw [hc] at h; exact ih (wf_fixed_feed hl hc) h

/-- A launch that is not refused resets the machine with a canonical fixed memory. -/
theorem launch_ok {p : Config.Params} {calls : List (List Byte)} {s : State}
    (h : launch p calls = .ok s) :
    ∃ image, image.wf fixedWords ∧ s = State.resetWith p image := by
  unfold launch at h
  cases hl : Loader.feedAll p.loadFormat .start calls with
  | error e => simp [hl] at h
  | ok l =>
    simp only [hl] at h
    split at h <;> cases h
    exact ⟨l.fixed, wf_fixed_feedAll (Memory.wf_nil fixedWords) hl, rfl⟩

/-! ### The reset state (R260) -/

/-- After reset Z holds `RESET_Z` and every other slot 0. -/
theorem slot_resetWith (p : Config.Params) (image : Memory) (a : Nat) :
    slot (State.resetWith p image) a = if a = slotZ then p.resetZ.setWidth 16 else 0 := by
  simp only [slot, State.resetWith, Vector.getElem?_set, Vector.getElem?_replicate]
  split_ifs <;> simp_all

theorem regsWf_resetWith (p : Config.Params) (image : Memory) :
    (State.resetWith p image).RegsWf := by
  have hz : p.resetZ.setWidth 16 &&& (0o7777 : Reg) = p.resetZ.setWidth 16 := by
    apply BitVec.eq_of_getLsbD_eq
    intro i hi
    interval_cases i <;> simp
  simpa [State.RegsWf, slot_resetWith] using hz

/-- The offsets of R42 lie between the lowest one and any interval of at least 1 MCT. -/
theorem timersWf_resetWith {p : Config.Params} (image : Memory) (h : 1 ≤ p.timerInterval) :
    (State.resetWith p image).TimersWf := by
  simp only [State.TimersWf, State.resetWith, Timers.initial, accOk]
  omega

theorem inv_resetWith {p : Config.Params} {image : Memory} (hp : p.Valid)
    (himage : image.wf fixedWords) : (State.resetWith p image).Inv := by
  have hinterval : 3 ≤ p.timerInterval := by
    obtain ⟨-, -, -, -, h, -⟩ := hp
    exact h
  exact ⟨hp, regsWf_resetWith p image, ⟨Memory.wf_nil erasableWords, himage⟩, List.Pairwise.nil,
    timersWf_resetWith image (by omega)⟩

/-- With the interval 893 the offsets of TIME4 and TIME5 are -669 and -446 (D17). -/
theorem timerPhases_resetWith {p : Config.Params} (image : Memory) (h : p.timerInterval = 893) :
    (State.resetWith p image).TimerPhases := by
  refine (timerPhases_iff _).mpr ⟨h, ?_, .inl rfl⟩
  simp [InPhase, State.resetWith, Timers.initial, h]

/-- Settles O57: the loader gives a canonical image, and a reset with it meets both. -/
theorem launchedMachineMeetsTheInvariant : Obligations.LaunchedMachineMeetsTheInvariant := by
  intro p calls s h
  obtain ⟨image, himage, rfl⟩ := launch_ok h
  exact ⟨fun hp => inv_resetWith hp himage, timerPhases_resetWith image⟩

/-- Settles O45: a launch with the defaults is in phase, so every state of its runs is, and its
stack holds at most two. -/
theorem stackHoldsAtMostFive : Obligations.StackHoldsAtMostFive := by
  intro calls s n h
  have hs : s.TimerPhases := (launchedMachineMeetsTheInvariant _ calls s h).2 rfl
  calc (runFuel n s).seqStack.length
    _ ≤ 2 := seqStack_length_le_two (timerPhases_runFuel n hs)
    _ ≤ 5 := by decide

end Sys2Proof.Proofs

/-! ## Banked memory and the redirected address space (R70 to R82) -/

namespace Sys2Proof.Proofs

open Sys2Proof.Machine

/-! ### Where an address reaches banked memory (the table of R70) -/

theorem locate_unswitched_erasable (s : State) {a : Nat} (ha : a < 0o1400) :
    locate s a = ⟨.erasable, a / 256, a % 256⟩ := if_pos ha

theorem locate_erasable_window (s : State) {o : Nat} (ho : o < 0o400) :
    locate s (0o1400 + o) = ⟨.erasable, ebField s, o⟩ := by
  rw [locate, if_neg (by omega), if_pos (by omega), Nat.add_sub_cancel_left]

theorem locate_fixed_window (s : State) {o : Nat} (ho : o < 0o2000) :
    locate s (0o2000 + o) = ⟨.fixed, fbank (fbField s) s.sb, o⟩ := by
  rw [locate, if_neg (by omega), if_neg (by omega), if_pos (by omega), Nat.add_sub_cancel_left]

theorem locate_fixed_bank2 (s : State) {o : Nat} (ho : o < 0o2000) :
    locate s (0o4000 + o) = ⟨.fixed, 2, o⟩ := by
  rw [locate, if_neg (by omega), if_neg (by omega), if_neg (by omega), if_pos (by omega),
    Nat.add_sub_cancel_left]

theorem locate_fixed_bank3 (s : State) (o : Nat) : locate s (0o6000 + o) = ⟨.fixed, 3, o⟩ := by
  rw [locate, if_neg (by omega), if_neg (by omega), if_neg (by omega), if_neg (by omega),
    Nat.add_sub_cancel_left]

/-! ### The banked read and write (R74, R75) -/

theorem bankedRead_beyond (s : State) {a : Nat} (ha : cpuLimit ≤ a) :
    bankedRead s a = .error (.outOfRange a none) := if_pos ha

/-- Inside the address space only the bank of a fixed location can be out of range. -/
theorem bankedRead_inside (s : State) {a : Nat} (ha : a < cpuLimit) :
    bankedRead s a =
      if (locate s a).region = .fixed ∧ s.params.fixedBankLimit ≤ (locate s a).bank
      then .error (.outOfRange a (some (locate s a).bank)) else .ok (readLoc s (locate s a)) :=
  if_neg (Nat.not_le.mpr ha)

theorem bankedRead_erasable (s : State) {a : Nat} (ha : a < 0o2000) :
    bankedRead s a = .ok (readLoc s (locate s a)) := by
  obtain ⟨hregion, -, -⟩ := locate_erasable s a ha
  rw [bankedRead_inside s (lt_trans ha (by decide)), if_neg (by simp [hregion])]

theorem bankedWrite_beyond (s : State) {a : Nat} (v : Reg) (ha : cpuLimit ≤ a) :
    bankedWrite s a v = .error (.outOfRange a none) := if_pos ha

theorem bankedWrite_fixed (s : State) {a : Nat} (v : Reg) (ha : 0o2000 ≤ a) (ha' : a < cpuLimit) :
    bankedWrite s a v = .error (.fixed a) := by
  obtain ⟨hregion, -, -⟩ := locate_fixed s a ha ha'
  rw [bankedWrite, if_neg (Nat.not_le.mpr ha')]
  simp only [hregion]

theorem bankedWrite_erasable (s : State) {a : Nat} (v : Reg) (ha : a < 0o2000) :
    bankedWrite s a v = .ok (storeErasable s (locate s a) (v.setWidth 15)) := by
  obtain ⟨hregion, -, -⟩ := locate_erasable s a ha
  rw [bankedWrite, if_neg (Nat.not_le.mpr (lt_trans ha (by decide)))]
  simp only [hregion]

/-- An erasable address reads back what was just stored there: the store moves no location. -/
theorem bankedRead_storeErasable (s : State) {a : Nat} (w : Word) (ha : a < 0o2000)
    (hrising : s.erasable.Pairwise (fun c d => c.1 < d.1)) :
    bankedRead (storeErasable s (locate s a) w) a = .ok w := by
  obtain ⟨hregion, -, -⟩ := locate_erasable s a ha
  rw [bankedRead_erasable _ ha, locate_congr s _ (storeErasable_regs s _ w) (storeErasable_sb s _ w),
    readLoc_storeErasable_same s _ w hregion hrising]

/-- A store changes one word of erasable memory and nothing else. -/
theorem changedOnly_storeErasable (s : State) (l : Loc) (w : Word) :
    ChangedOnly [] [l.index] s (storeErasable s l w) := by
  refine ⟨fun a _ _ => reg_storeErasable s l w a, fun c hc => ?_, by simp, by simp [SameControl]⟩
  exact Memory.readByte_writeWord_other _ _ _ _ (by simpa using hc)

/-- Settles O12: one law per range of addresses; the store is read back, framed and canonical. -/
theorem bankedStoreIsReadBack : Obligations.BankedStoreIsReadBack := fun s a v =>
  ⟨bankedWrite_beyond s v, bankedWrite_fixed s v, fun ha hwf =>
    ⟨_, bankedWrite_erasable s v ha, bankedRead_storeErasable s _ ha hwf.1.1,
      changedOnly_storeErasable s _ _, memWf_storeErasable s a _ ha hwf⟩⟩

/-- Settles O13: the two ranges of addresses. -/
theorem bankedReadFailsOnlyOutOfRange : Obligations.BankedReadFailsOnlyOutOfRange := fun s _ =>
  ⟨bankedRead_beyond s, bankedRead_inside s⟩

/-! ### The fixed window (R72) -/

/-- `fb` by value: bits 14 to 10 of FB (R36). -/
theorem fbField_eq (s : State) : fbField s = (reg s slotFB).toNat / 0o2000 % 0o40 := by
  rw [fbField, reg_eq_slot s slotFB (by decide), BitVec.extractLsb'_toNat, Nat.shiftRight_eq_div_pow]

/-- With the super-bit a field of 030 or more moves up by 8, so that no field reaches banks 24
to 31. -/
theorem fbank_superBit (fb : Nat) : ¬(24 ≤ fbank fb true ∧ fbank fb true ≤ 31) := by
  by_cases h : 0o30 ≤ fb
  · rw [fbank, if_pos ⟨rfl, h⟩]
    omega
  · rw [fbank, if_neg (fun hc => h hc.2)]
    omega

theorem fbank_superBit_high {fb : Nat} (h : 0o30 ≤ fb) (h' : fb < 32) :
    32 ≤ fbank fb true ∧ fbank fb true ≤ 39 := by
  rw [fbank, if_pos ⟨rfl, h⟩]
  omega

/-- Settles O14: the window's location is `fbank fb sb`, and each clause is a fact of `fbank`. -/
theorem fixedWindowFollowsTheSuperBit : Obligations.FixedWindowFollowsTheSuperBit := by
  intro s o ho
  rw [← fbField_eq, locate_fixed_window s ho, locate_fixed_bank2 s ho, locate_fixed_bank3 s o]
  refine ⟨rfl, fun h2 => ?_, fun h3 => ?_, fun hsb => ?_, fun hsb hfb => ?_⟩
  · simp [h2, fbank]
  · simp [h3, fbank]
  · rw [hsb]; exact fbank_superBit _
  · rw [hsb]; exact fbank_superBit_high hfb (fbField_lt s)

/-! ### The words that the registers shadow (R82) -/

/-- Only two addresses can reach a word of erasable bank 0: its own number, and the window with
`eb = 0`. -/
theorem locate_erasable_bank0 {s : State} {a k : Nat} (h : locate s a = ⟨.erasable, 0, k⟩) :
    a = k ∨ (a = 0o1400 + k ∧ ebField s = 0) := by
  unfold locate at h
  split_ifs at h with h1 h2 <;> simp only [Loc.mk.injEq, reduceCtorEq, false_and, true_and] at h
  all_goals omega

/-- Settles O15: the window is redirected to banked memory, and an address past the registers is not
the word's own number. -/
theorem shadowedWordsNeedTheWindow : Obligations.ShadowedWordsNeedTheWindow := by
  refine ⟨fun s k hk heb => ⟨?_, memRead_register s k hk⟩, fun s a k ha hk h => ?_⟩
  · have hwindow : locate s (0o1400 + k) = ⟨.erasable, 0, k⟩ := by
      rw [locate_erasable_window s (by omega), heb]
    have hmemory : regLimit ≤ 0o1400 + k := Nat.le_add_right_of_le (by decide)
    have hspace : 0o1400 + k < cpuLimit := lt_trans (Nat.add_lt_add_left hk _) (by decide)
    rw [memRead_banked s _ hmemory hspace (by simp [hwindow]), hwindow]
  · have hne : a ≠ k := by omega
    exact (locate_erasable_bank0 h).resolve_left hne

end Sys2Proof.Proofs

/-! ## Pseudo-addresses (R60 to R68, R76) -/

namespace Sys2Proof.Proofs

open Sys2Proof.Machine

/-! ### The classes of pseudo-addresses as ranges of numbers (R61, R62) -/

theorem isValid_iff (p : PseudoAddr) :
    isValid p = true ↔ p.toNat < 0x1800 ∨ (0x2000 ≤ p.toNat ∧ p.toNat < 0xB000) := by
  simp [isValid, BitVec.lt_def, BitVec.le_def]

theorem isValid_eq_false_iff (p : PseudoAddr) :
    isValid p = false ↔ (0x1800 ≤ p.toNat ∧ p.toNat < 0x2000) ∨ 0xB000 ≤ p.toNat := by
  rw [← Bool.not_eq_true, isValid_iff]
  omega

theorem isErasable_iff (p : PseudoAddr) : isErasable p = true ↔ p.toNat < 0x0800 := by
  simp [isErasable, BitVec.lt_def]

theorem isFixed_iff (p : PseudoAddr) : isFixed p = true ↔ isValid p = true ∧ 0x0800 ≤ p.toNat := by
  rw [isFixed, Bool.and_eq_true, Bool.not_eq_true', ← Bool.not_eq_true, isErasable_iff, Nat.not_lt]

theorem isSuperBit_iff (p : PseudoAddr) :
    isSuperBit p = true ↔ 0x9000 ≤ p.toNat ∧ p.toNat < 0xB000 := by
  simp [isSuperBit, BitVec.lt_def, BitVec.le_def]

/-! ### Decomposition and its inverse (R63 to R65) -/

/-- A location inside the 8 erasable banks of 256 words or the 40 fixed banks of 1024 (R47, R63). -/
def InBank (l : Loc) : Prop :=
  match l.region with
  | .erasable => l.bank < 8 ∧ l.offset < 256
  | .fixed => l.bank < 40 ∧ l.offset < 1024

theorem inBank_iff (l : Loc) :
    InBank l ↔ (l.region = .erasable → l.bank < 8 ∧ l.offset < 256) ∧
      (l.region = .fixed → l.bank < 40 ∧ l.offset < 1024) := by
  obtain ⟨region, bank, offset⟩ := l
  cases region <;> simp [InBank]

theorem inBank_locate (s : State) {a : Nat} (ha : a < cpuLimit) : InBank (locate s a) := by
  refine (inBank_iff _).mpr ?_
  by_cases h : a < 0o2000
  · obtain ⟨hregion, hbank, hoffset⟩ := locate_erasable s a h
    simp [hregion, hbank, hoffset]
  · obtain ⟨hregion, hbank, hoffset⟩ := locate_fixed s a (by omega) ha
    simp [hregion, hbank, hoffset]

/-- A location's pseudo-address as a number: only fixed banks other than 2 and 3 are shifted (R65). -/
def pseudoNumber (l : Loc) : Nat :=
  match l.region with
  | .erasable => l.bank * 256 + l.offset
  | .fixed => (if l.bank = 2 ∨ l.bank = 3 then 0 else 0x1000) + l.bank * 1024 + l.offset

/-- No pseudo-address of a location wraps. -/
theorem toNat_pseudo {l : Loc} (h : InBank l) : (pseudo l).toNat = pseudoNumber l := by
  obtain ⟨region, bank, offset⟩ := l
  cases region <;> simp only [InBank] at h <;> simp only [pseudo, pseudoNumber]
  case erasable =>
    rw [BitVec.toNat_ofNat]
    omega
  case fixed =>
    split_ifs <;> rw [BitVec.toNat_ofNat] <;> omega

theorem bankAndOffset_erasable {p : PseudoAddr} (h : p.toNat < 0x0800) :
    bankAndOffset p = .ok ⟨.erasable, p.toNat / 256, p.toNat % 256⟩ :=
  if_pos ((isErasable_iff p).mpr h)

/-- Fixed banks 2 and 3 stand at their own numbers, the others 4 banks higher (R64). -/
theorem bankAndOffset_fixed {p : PseudoAddr} (hvalid : isValid p = true) (h : 0x0800 ≤ p.toNat) :
    bankAndOffset p =
      .ok ⟨.fixed, if p.toNat < 0x1000 then p.toNat / 1024 else p.toNat / 1024 - 4,
        p.toNat % 1024⟩ := by
  have herasable : ¬isErasable p = true := by rw [isErasable_iff]; omega
  rw [bankAndOffset, if_neg herasable, if_pos ((isFixed_iff p).mpr ⟨hvalid, h⟩)]
  rfl

theorem bankAndOffset_invalid {p : PseudoAddr} (h : isValid p = false) :
    bankAndOffset p = .error (.invalid p) := by
  have hrange := (isValid_eq_false_iff p).mp h
  have herasable : ¬isErasable p = true := by rw [isErasable_iff]; omega
  have hfixed : ¬isFixed p = true := by simp [isFixed_iff, h]
  rw [bankAndOffset, if_neg herasable, if_neg hfixed]

/-- A valid pseudo-address decomposes into the location in range that it numbers. -/
theorem bankAndOffset_of_isValid {p : PseudoAddr} (hvalid : isValid p = true) :
    ∃ l, bankAndOffset p = .ok l ∧ InBank l ∧ pseudoNumber l = p.toNat := by
  have hrange := (isValid_iff p).mp hvalid
  by_cases h : p.toNat < 0x0800
  · refine ⟨_, bankAndOffset_erasable h, ?_, ?_⟩ <;> simp only [InBank, pseudoNumber] <;> omega
  · refine ⟨_, bankAndOffset_fixed hvalid (by omega), ?_, ?_⟩ <;>
      simp only [InBank, pseudoNumber] <;> split_ifs <;> omega

/-- Every location in range has a valid pseudo-address of its own. -/
theorem bankAndOffset_pseudo {l : Loc} (h : InBank l) : bankAndOffset (pseudo l) = .ok l := by
  have hnumber := toNat_pseudo h
  obtain ⟨region, bank, offset⟩ := l
  cases region <;> simp only [InBank] at h <;> simp only [pseudoNumber] at hnumber
  case erasable =>
    rw [bankAndOffset_erasable (by omega)]
    simp only [Except.ok.injEq, Loc.mk.injEq, true_and]
    omega
  case fixed =>
    have hvalid : isValid (pseudo ⟨.fixed, bank, offset⟩) = true := by
      rw [isValid_iff]
      split_ifs at hnumber <;> omega
    rw [bankAndOffset_fixed hvalid (by split_ifs at hnumber <;> omega)]
    simp only [Except.ok.injEq, Loc.mk.injEq, true_and]
    split_ifs at hnumber ⊢ <;> omega

/-- The super-bit's pseudo-addresses are those of fixed banks 32 and up (R62). -/
theorem isSuperBit_iff_bank {p : PseudoAddr} {l : Loc} (h : InBank l)
    (hnumber : pseudoNumber l = p.toNat) :
    isSuperBit p = true ↔ l.region = .fixed ∧ 32 ≤ l.bank := by
  rw [isSuperBit_iff, ← hnumber]
  obtain ⟨region, bank, offset⟩ := l
  cases region <;> simp only [InBank] at h <;> simp only [pseudoNumber]
  case erasable =>
    simp only [reduceCtorEq, false_and, iff_false]
    omega
  case fixed =>
    simp only [true_and]
    split_ifs <;> omega

/-- Settles O17: a valid pseudo-address is the number of its location, and locations in range number
without collision. -/
theorem pseudoInvertsBankAndOffset : Obligations.PseudoInvertsBankAndOffset := by
  refine ⟨fun p hvalid => ?_, fun p => bankAndOffset_invalid, fun l herasable hfixed =>
    bankAndOffset_pseudo ((inBank_iff l).mpr ⟨herasable, hfixed⟩)⟩
  obtain ⟨l, hl, hbank, hnumber⟩ := bankAndOffset_of_isValid hvalid
  obtain ⟨herasable, hfixed⟩ := (inBank_iff l).mp hbank
  refine ⟨l, hl, BitVec.eq_of_toNat_eq ((toNat_pseudo hbank).trans hnumber), fun hr => ?_,
    fun hr => ?_, isSuperBit_iff_bank hbank hnumber⟩
  · obtain ⟨hb, ho⟩ := herasable hr
    exact ⟨hb, ho, by rw [← hnumber, pseudoNumber, hr]⟩
  · obtain ⟨hb, ho⟩ := hfixed hr
    exact ⟨hb, ho, by rw [← hnumber, pseudoNumber, hr]⟩

/-! ### CPU addresses and pseudo-addresses (R66, R76) -/

theorem asOperand_pseudo {l : Loc} (h : InBank l) : asOperand (pseudo l) = .ok (operandOf l) := by
  rw [asOperand, bankAndOffset_pseudo h]

/-- The operand of a CPU address's pseudo-address is that of the location the address reaches. -/
theorem asOperand_cpuPseudo (s : State) (a : Addr) :
    asOperand (cpuPseudo s a) = .ok (operandOf (locate s a.toNat)) :=
  asOperand_pseudo (inBank_locate s a.isLt)

/-- The rows of the table of R70. -/
theorem cpuAddress_cases {a : Nat} (ha : a < cpuLimit) :
    a < 0o1400 ∨ (∃ o < 0o400, a = 0o1400 + o) ∨ (∃ o < 0o2000, a = 0o2000 + o) ∨
      (∃ o < 0o2000, a = 0o4000 + o) ∨ (∃ o < 0o2000, a = 0o6000 + o) := by
  have hspace : a < 0o10000 := ha
  by_cases h1 : a < 0o1400
  · exact .inl h1
  by_cases h2 : a < 0o2000
  · exact .inr (.inl ⟨a - 0o1400, by omega⟩)
  by_cases h3 : a < 0o4000
  · exact .inr (.inr (.inl ⟨a - 0o2000, by omega⟩))
  by_cases h4 : a < 0o6000
  · exact .inr (.inr (.inr (.inl ⟨a - 0o4000, by omega⟩)))
  · exact .inr (.inr (.inr (.inr ⟨a - 0o6000, by omega⟩)))

/-- The location of an unswitched address has the address itself as its number. -/
theorem pseudoNumber_locate_unswitched (s : State) {a : Nat} (ha : a < cpuLimit)
    (h : a < 0o1400 ∨ 0o4000 ≤ a) : pseudoNumber (locate s a) = a := by
  rcases cpuAddress_cases ha with h1 | ⟨o, ho, rfl⟩ | ⟨o, ho, rfl⟩ | ⟨o, ho, rfl⟩ | ⟨o, ho, rfl⟩
  · rw [locate_unswitched_erasable s h1]
    exact Nat.div_add_mod' a 256
  · omega
  · omega
  · rw [locate_fixed_bank2 s ho]
    simp [pseudoNumber]
  · rw [locate_fixed_bank3 s o]
    simp [pseudoNumber]

theorem toNat_cpuPseudo_unswitched (s : State) {a : Addr}
    (h : a.toNat < 0o1400 ∨ 0o4000 ≤ a.toNat) : (cpuPseudo s a).toNat = a.toNat := by
  rw [cpuPseudo, toNat_pseudo (inBank_locate s a.isLt),
    pseudoNumber_locate_unswitched s a.isLt h]

/-- The operand of a location is the address that reached it, unless that address lies in a window
set to an unswitched bank. -/
theorem operandOf_locate (s : State) {a : Nat} (ha : a < cpuLimit)
    (h : a < 0o1400 ∨ 0o4000 ≤ a ∨ isSwitchable (locate s a) = true) :
    operandOf (locate s a) = BitVec.ofNat 12 a := by
  rcases cpuAddress_cases ha with h1 | ⟨o, ho, rfl⟩ | ⟨o, ho, rfl⟩ | ⟨o, ho, rfl⟩ | ⟨o, ho, rfl⟩
  · have hbank : a / 256 ≤ 2 := by omega
    rw [locate_unswitched_erasable s h1]
    simp only [operandOf, if_pos hbank]
    rw [Nat.div_add_mod' a 256]
  · rw [locate_erasable_window s ho] at h ⊢
    have hbank : ¬ebField s ≤ 2 := by
      simp only [isSwitchable, decide_eq_true_eq] at h
      omega
    simp only [operandOf, if_neg hbank]
  · rw [locate_fixed_window s ho] at h ⊢
    have hbank : ¬(fbank (fbField s) s.sb = 2 ∨ fbank (fbField s) s.sb = 3) := by
      simp only [isSwitchable, Bool.and_eq_true, bne_iff_ne] at h
      omega
    simp only [operandOf, if_neg hbank]
  · rw [locate_fixed_bank2 s ho]
    simp [operandOf]
  · rw [locate_fixed_bank3 s o]
    simp [operandOf]

theorem asOperand_cpuPseudo_eq_self (s : State) {a : Addr}
    (h : a.toNat < 0o1400 ∨ 0o4000 ≤ a.toNat ∨ isSwitchable (locate s a.toNat) = true) :
    asOperand (cpuPseudo s a) = .ok a := by
  rw [asOperand_cpuPseudo, operandOf_locate s a.isLt h, BitVec.ofNat_toNat, BitVec.setWidth_eq]

theorem isSwitchable_erasable_window (s : State) {a : Nat} (h : 0o1400 ≤ a) (h' : a < 0o2000)
    (hbank : 2 < ebField s) : isSwitchable (locate s a) = true := by
  obtain ⟨o, rfl⟩ := Nat.exists_eq_add_of_le h
  rw [locate_erasable_window s (by omega)]
  exact decide_eq_true hbank

theorem isSwitchable_fixed_window (s : State) {a : Nat} (h : 0o2000 ≤ a) (h' : a < 0o4000)
    (h2 : fbank (fbField s) s.sb ≠ 2) (h3 : fbank (fbField s) s.sb ≠ 3) :
    isSwitchable (locate s a) = true := by
  obtain ⟨o, rfl⟩ := Nat.exists_eq_add_of_le h
  rw [locate_fixed_window s (by omega)]
  simp [isSwitchable, h2, h3]

/-- Settles O18: unswitched addresses are their own numbers, and a window counts where its bank is
switchable. -/
theorem operandsReachTheirPseudoAddress : Obligations.OperandsReachTheirPseudoAddress := fun s _ =>
  ⟨fun h => ⟨toNat_cpuPseudo_unswitched s h,
      asOperand_cpuPseudo_eq_self s (h.imp_right .inl)⟩,
    fun h h' hbank =>
      asOperand_cpuPseudo_eq_self s (.inr (.inr (isSwitchable_erasable_window s h h' hbank))),
    fun h h' h2 h3 =>
      asOperand_cpuPseudo_eq_self s (.inr (.inr (isSwitchable_fixed_window s h h' h2 h3)))⟩

/-! ### Iteration (R68) -/

theorem nextValid_invalid {p : PseudoAddr} (h : isValid p = false) :
    nextValid p = .error (.invalid p) := by
  rw [nextValid, if_neg (by simp [h])]

/-- Away from the two ends and the gap, iteration counts by one. -/
theorem nextValid_succ {p : PseudoAddr} (hvalid : isValid p = true) (herasable : p ≠ 0x07FF)
    (hfixed : p ≠ 0xAFFF) (hgap : p ≠ 0x17FF) : nextValid p = .ok (p + 1) := by
  rw [nextValid, if_pos hvalid, if_neg (by bv_omega), if_neg (by bv_omega), if_neg (by bv_omega)]

/-- A valid pseudo-address that is not the last before the gap or the end has a valid successor. -/
theorem isValid_succ {p : PseudoAddr} (hvalid : isValid p = true) (hfixed : p ≠ 0xAFFF)
    (hgap : p ≠ 0x17FF) : isValid (p + 1) = true ∧ p < p + 1 := by
  rw [isValid_iff] at hvalid ⊢
  constructor <;> bv_omega

/-- Iteration gives the least valid pseudo-address above. -/
theorem nextValid_least {p : PseudoAddr} (hvalid : isValid p = true) (herasable : p ≠ 0x07FF)
    (hfixed : p ≠ 0xAFFF) :
    ∃ q, nextValid p = .ok q ∧ isValid q = true ∧ p < q ∧
      ∀ r, p < r → r < q → isValid r = false := by
  by_cases hgap : p = 0x17FF
  · subst hgap
    refine ⟨0x2000, rfl, rfl, by decide, fun r hlow hhigh => (isValid_eq_false_iff r).mpr ?_⟩
    bv_omega
  · obtain ⟨hsucc, hlt⟩ := isValid_succ hvalid hfixed hgap
    exact ⟨p + 1, nextValid_succ hvalid herasable hfixed hgap, hsucc, hlt,
      fun r hlow hhigh => by bv_omega⟩

/-- Settles O19: the two ends fail, and elsewhere iteration answers, so it fails nowhere else. -/
theorem nextValidSkipsNothingValid : Obligations.NextValidSkipsNothingValid := by
  refine ⟨fun p hvalid => ?_, fun p => nextValid_invalid⟩
  by_cases herasable : p = 0x07FF
  · subst herasable
    exact ⟨⟨fun _ => rfl, fun _ => rfl⟩, by decide, fun h => absurd rfl h⟩
  by_cases hfixed : p = 0xAFFF
  · subst hfixed
    exact ⟨by decide, ⟨fun _ => rfl, fun _ => rfl⟩, fun _ h => absurd rfl h⟩
  · obtain ⟨q, hq, hleast⟩ := nextValid_least hvalid herasable hfixed
    exact ⟨iff_of_false (by simp [hq]) herasable, iff_of_false (by simp [hq]) hfixed,
      fun _ _ => ⟨q, hq, hleast⟩⟩

end Sys2Proof.Proofs

/-! ## The loader (R90 to R93) -/

namespace Sys2Proof.Proofs

open Sys2Proof.Machine

/-! ### One call in place of many (R91) -/

/-- A call with two fragments in one is a call with each in turn. -/
theorem feed_append (format : Config.LoadFormat) (l : Loader) (bs cs : List Byte) :
    l.feed format (bs ++ cs) = (l.feed format bs).bind fun l' => l'.feed format cs := by
  induction bs generalizing l with
  | nil => rfl
  | cons b bs ih =>
    rw [List.cons_append, Loader.feed, Loader.feed]
    cases l.feedByte format b with
    | error e => rfl
    | ok l' => exact ih l'

/-- How the stream is split into calls makes no difference. -/
theorem feedAll_eq_feed_flatten (format : Config.LoadFormat) (l : Loader)
    (calls : List (List Byte)) : l.feedAll format calls = l.feed format calls.flatten := by
  induction calls generalizing l with
  | nil => rfl
  | cons c cs ih =>
    rw [Loader.feedAll, List.flatten_cons, feed_append]
    cases l.feed format c with
    | error e => rfl
    | ok l' => exact ih l'

/-! ### Where the words of the stream go (R90, R93) -/

theorem streamBank_yaagc (j : Nat) : streamBank .yaagc j = [2, 3, 0, 1].getD j j :=
  match j with
  | 0 | 1 | 2 | 3 => rfl
  | _ + 4 => rfl

theorem streamBank_injective {format : Config.LoadFormat} {i j : Nat}
    (h : streamBank format i = streamBank format j) : i = j := by
  cases format <;> simp only [streamBank] at h
  case yaagc => split_ifs at h <;> omega
  all_goals exact h

/-- No two words of the stream share a place. -/
theorem streamLoc_index_injective {format : Config.LoadFormat} {i j : Nat}
    (h : (streamLoc format i).index = (streamLoc format j).index) : i = j := by
  simp only [streamLoc, Loc.index] at h
  have hbank : i / 1024 = j / 1024 := streamBank_injective (format := format) (by omega)
  omega

@[simp] theorem streamWord_zero (format : Config.LoadFormat) : streamWord format 0 = 0 := by
  cases format <;> rfl

/-! ### What the loader holds after the first bytes of a stream (R90 to R92) -/

/-- The pair of bytes number `k` of a stream, high byte first, 0 past its end. -/
def streamPair (bytes : List Byte) (k : Nat) : BitVec 16 :=
  bytes.getD (2 * k) 0 ++ bytes.getD (2 * k + 1) 0

/-- The loader after `bytes`: every complete pair is stored in its place and nothing else, and the byte
after the last pair, if there is one, is left over. -/
structure Loaded (format : Config.LoadFormat) (bytes : List Byte) (l : Loader) : Prop where
  count : l.count = bytes.length / 2
  leftover : l.leftover = bytes[2 * l.count]?
  rising : l.fixed.Pairwise (fun c d => c.1 < d.1)
  words : ∀ k, l.fixed.readWord (streamLoc format k).index =
    if k < l.count then streamWord format (streamPair bytes k) else 0

theorem readWord_nil (i : Nat) : Memory.readWord [] i = 0 := by
  rw [Memory.readWord, Memory.readByte_nil, Memory.readByte_nil]
  rfl

theorem loaded_start (format : Config.LoadFormat) : Loaded format [] .start :=
  ⟨rfl, rfl, List.Pairwise.nil, fun _ => readWord_nil _⟩

/-- No byte is left over after an even number of them. -/
theorem Loaded.length_of_none {format : Config.LoadFormat} {bytes : List Byte} {l : Loader}
    (h : Loaded format bytes l) (hl : l.leftover = none) : bytes.length = 2 * l.count := by
  have hcount := h.count
  have hend : bytes.length ≤ 2 * l.count :=
    List.getElem?_eq_none_iff.mp (h.leftover.symm.trans hl)
  omega

/-- The byte left over is the last of an odd number. -/
theorem Loaded.length_of_some {format : Config.LoadFormat} {bytes : List Byte} {l : Loader}
    {hi : Byte} (h : Loaded format bytes l) (hl : l.leftover = some hi) :
    bytes.length = 2 * l.count + 1 := by
  have hcount := h.count
  obtain ⟨hlt, -⟩ := List.getElem?_eq_some_iff.mp (h.leftover.symm.trans hl)
  omega

/-- A byte that comes later changes no complete pair. -/
theorem streamPair_concat {bytes : List Byte} {k : Nat} (h : 2 * k + 1 < bytes.length) (b : Byte) :
    streamPair (bytes ++ [b]) k = streamPair bytes k := by
  unfold streamPair
  rw [List.getD_append _ _ _ _ (by omega), List.getD_append _ _ _ _ h]

/-- The words of the complete pairs, whatever byte comes next. -/
theorem Loaded.words_concat {format : Config.LoadFormat} {bytes : List Byte} {l : Loader}
    (h : Loaded format bytes l) (b : Byte) (k : Nat) :
    l.fixed.readWord (streamLoc format k).index =
      if k < l.count then streamWord format (streamPair (bytes ++ [b]) k) else 0 := by
  have hcount := h.count
  rw [h.words k]
  split_ifs with hk
  · rw [streamPair_concat (by omega)]
  · rfl

/-- A second byte completes the pair of the one left over. -/
theorem Loaded.streamPair_complete {format : Config.LoadFormat} {bytes : List Byte} {l : Loader}
    {hi : Byte} (h : Loaded format bytes l) (hl : l.leftover = some hi) (b : Byte) :
    streamPair (bytes ++ [b]) l.count = hi ++ b := by
  have hodd := h.length_of_some hl
  have hhigh : bytes[2 * l.count]? = some hi := h.leftover.symm.trans hl
  rw [streamPair, List.getD_eq_getElem?_getD, List.getD_eq_getElem?_getD, ← hodd,
    List.getElem?_concat_length, List.getElem?_append_left (by omega), hhigh]
  rfl

/-- The first byte of a pair is kept. -/
theorem Loaded.keep {format : Config.LoadFormat} {bytes : List Byte} {l : Loader}
    (h : Loaded format bytes l) (hl : l.leftover = none) (b : Byte) :
    Loaded format (bytes ++ [b]) { l with leftover := some b } := by
  have heven := h.length_of_none hl
  refine ⟨?count, ?leftover, h.rising, h.words_concat b⟩
  case count => simp only [List.length_append, List.length_singleton]; omega
  case leftover => simp [← heven]

/-- The second byte of a pair stores a word, in a place of its own. -/
theorem Loaded.store {format : Config.LoadFormat} {bytes : List Byte} {l : Loader} {hi : Byte}
    (h : Loaded format bytes l) (hl : l.leftover = some hi) (b : Byte) :
    Loaded format (bytes ++ [b])
      ⟨l.count + 1, none,
        l.fixed.writeWord (streamLoc format l.count).index (streamWord format (hi ++ b))⟩ := by
  have hodd := h.length_of_some hl
  refine ⟨?count, ?leftover, ?rising, fun k => ?words⟩
  case count => simp only [List.length_append, List.length_singleton]; omega
  case leftover =>
    rw [eq_comm, List.getElem?_eq_none_iff, List.length_append, List.length_singleton]
    exact Nat.le_of_eq (congrArg (· + 1) hodd)
  case rising => exact Memory.writeByte_rising _ _ _ (Memory.writeByte_rising _ _ _ h.rising)
  case words =>
    by_cases hk : k = l.count
    · rw [hk, Memory.readWord_writeWord_same _ _ _ h.rising, if_pos (Nat.lt_succ_self _),
        h.streamPair_complete hl b]
    · have hplace : (streamLoc format k).index ≠ (streamLoc format l.count).index :=
        fun he => hk (streamLoc_index_injective he)
      have hcount : k < l.count + 1 ↔ k < l.count := by omega
      rw [Memory.readWord_writeWord_other _ _ _ _ hplace, h.words_concat b]
      simp only [hcount]

/-- Below the loader's limit every byte is taken. -/
theorem Loaded.feedByte {format : Config.LoadFormat} {bytes : List Byte} {l : Loader}
    (h : Loaded format bytes l) (b : Byte) (hroom : bytes.length < 81920) :
    ∃ l', l.feedByte format b = .ok l' ∧ Loaded format (bytes ++ [b]) l' := by
  have hcount := h.count
  have hlimit : ¬fixedWords ≤ l.count := by simp only [fixedWords]; omega
  rw [Loader.feedByte, if_neg hlimit]
  cases hl : l.leftover with
  | none => exact ⟨_, rfl, h.keep hl b⟩
  | some hi => exact ⟨_, rfl, h.store hl b⟩

/-- A full loader refuses any byte. -/
theorem Loaded.feedByte_full {format : Config.LoadFormat} {bytes : List Byte} {l : Loader}
    (h : Loaded format bytes l) (b : Byte) (hfull : bytes.length = 81920) :
    l.feedByte format b = .error .overrun := by
  have hcount := h.count
  have hlimit : fixedWords ≤ l.count := by simp only [fixedWords]; omega
  rw [Loader.feedByte, if_pos hlimit]

/-! ### Whole streams (R90 to R93) -/

/-- Up to the loader's limit a whole fragment is taken. -/
theorem Loaded.feed {format : Config.LoadFormat} {bytes : List Byte} {l : Loader}
    (h : Loaded format bytes l) (more : List Byte) (hroom : (bytes ++ more).length ≤ 81920) :
    ∃ l', l.feed format more = .ok l' ∧ Loaded format (bytes ++ more) l' := by
  induction more generalizing bytes l with
  | nil => exact ⟨l, rfl, by rwa [List.append_nil]⟩
  | cons b bs ih =>
    rw [List.append_cons] at hroom ⊢
    have hbyte : bytes.length < 81920 := by
      simp only [List.length_append, List.length_singleton] at hroom
      omega
    obtain ⟨m, hm, hloaded⟩ := h.feedByte b hbyte
    rw [Loader.feed, hm]
    exact ih hloaded hroom

/-- A stream up to the limit is loaded, however it is split into calls. -/
theorem feedAll_loaded (format : Config.LoadFormat) (calls : List (List Byte))
    (hlength : calls.flatten.length ≤ 81920) :
    ∃ l, Loader.feedAll format .start calls = .ok l ∧ Loaded format calls.flatten l := by
  rw [feedAll_eq_feed_flatten]
  exact (loaded_start format).feed calls.flatten hlength

/-- A stream past the limit is refused at its byte number 81,921. -/
theorem feedAll_overrun (format : Config.LoadFormat) (calls : List (List Byte))
    (hlength : 81920 < calls.flatten.length) :
    Loader.feedAll format .start calls = .error .overrun := by
  rw [feedAll_eq_feed_flatten, ← List.take_append_drop 81920 calls.flatten, feed_append]
  have hfull : (calls.flatten.take 81920).length = 81920 := List.length_take_of_le hlength.le
  obtain ⟨l, hl, hloaded⟩ := (loaded_start format).feed (calls.flatten.take 81920) hfull.le
  rw [hl, List.drop_eq_getElem_cons hlength]
  show Loader.feed format l _ = _
  rw [Loader.feed, hloaded.feedByte_full _ hfull]

theorem streamPair_past {bytes : List Byte} {k : Nat} (h : bytes.length ≤ 2 * k) :
    streamPair bytes k = 0 := by
  rw [streamPair, List.getD_eq_default _ _ h, List.getD_eq_default _ _ (by omega)]
  rfl

/-- After an even number of bytes every place holds its word of the stream, 0 past the stream's end. -/
theorem Loaded.readWord_streamLoc {format : Config.LoadFormat} {bytes : List Byte} {l : Loader}
    (h : Loaded format bytes l) (hl : l.leftover = none) (k : Nat) :
    l.fixed.readWord (streamLoc format k).index = streamWord format (streamPair bytes k) := by
  have heven := h.length_of_none hl
  rw [h.words k]
  split_ifs with hk
  · rfl
  · rw [streamPair_past (by omega), streamWord_zero]

theorem launch_overrun (p : Config.Params) (calls : List (List Byte))
    (hlength : 81920 < calls.flatten.length) : launch p calls = .error .overrun := by
  rw [launch, feedAll_overrun p.loadFormat calls hlength]

theorem launch_oddByte (p : Config.Params) (calls : List (List Byte))
    (hlength : calls.flatten.length ≤ 81920) (hodd : calls.flatten.length % 2 = 1) :
    launch p calls = .error .oddByte := by
  obtain ⟨l, hl, hloaded⟩ := feedAll_loaded p.loadFormat calls hlength
  cases hleft : l.leftover with
  | none => have := hloaded.length_of_none hleft; omega
  | some b => simp only [launch, hl, hleft]

/-- A launch that is not refused resets the machine with every word of the stream in its place. -/
theorem launch_places (p : Config.Params) (calls : List (List Byte))
    (hlength : calls.flatten.length ≤ 81920) (heven : calls.flatten.length % 2 = 0) :
    ∃ image, launch p calls = .ok (State.resetWith p image) ∧
      ∀ k, image.readWord (streamLoc p.loadFormat k).index =
        streamWord p.loadFormat (streamPair calls.flatten k) := by
  obtain ⟨l, hl, hloaded⟩ := feedAll_loaded p.loadFormat calls hlength
  cases hleft : l.leftover with
  | none => exact ⟨l.fixed, by simp only [launch, hl, hleft], hloaded.readWord_streamLoc hleft⟩
  | some b => have := hloaded.length_of_some hleft; omega

/-- Settles O56: the refusals, and the words in place, read with the table of each format. -/
theorem launchPlacesTheImage : Obligations.LaunchPlacesTheImage := by
  refine fun p calls => ⟨launch_overrun p calls, launch_oddByte p calls, fun hlength heven => ?_⟩
  obtain ⟨image, hlaunch, hwords⟩ := launch_places p calls hlength heven
  refine ⟨_, hlaunch, rfl, fun k _ => ?_⟩
  have hword : readLoc (State.resetWith p image) (streamLoc p.loadFormat k) =
      streamWord p.loadFormat (streamPair calls.flatten k) := hwords k
  cases hformat : p.loadFormat <;> rw [hformat] at hword
  case yaagc => rw [streamLoc, streamBank_yaagc] at hword; exact hword
  case native => exact hword
  case nativeShifted => exact hword

end Sys2Proof.Proofs

/-! ## The decoder and the encoder (R110 to R128) -/

namespace Sys2Proof.Proofs

/-! ### Matching an entry and the uniqueness of the match (R113, R116) -/

/-- The operand bits of an opcode, as bits of the operand (R111, R112). -/
def operandMask (o : Opcode) : Addr := o.entry.mask.setWidth 12

theorem matchesWord_iff (e : Entry) (w : Word) :
    e.matchesWord w = true ↔ e.base = w &&& ~~~e.mask := beq_iff_eq

theorem entry_mem (o : Opcode) : o.entry ∈ decoderTable := by cases o <;> decide

@[simp] theorem entry_opcode (o : Opcode) : o.entry.opcode = o := by cases o <;> rfl

/-- Two rows of the table differ at an opcode bit of both. -/
theorem eq_of_base_and_notMask_eq :
    ∀ e ∈ decoderTable, ∀ e' ∈ decoderTable,
      e.base &&& ~~~e'.mask = e'.base &&& ~~~e.mask → e = e' := by decide

/-- A word that matches two rows gives each row's base to the other's opcode bits. -/
theorem eq_of_matchesWord {e e' : Entry} {w : Word} (he : e ∈ decoderTable) (he' : e' ∈ decoderTable)
    (h : e.matchesWord w = true) (h' : e'.matchesWord w = true) : e = e' := by
  rw [matchesWord_iff] at h h'
  refine eq_of_base_and_notMask_eq e he e' he' ?_
  rw [h, h', BitVec.and_assoc, BitVec.and_comm (~~~e.mask), ← BitVec.and_assoc]

theorem filter_table_of_matches {o : Opcode} {w : Word} (h : o.entry.matchesWord w = true) :
    decoderTable.filter (fun e => e.matchesWord w) = [o.entry] := by
  have honly : ∀ e ∈ decoderTable, e.matchesWord w = (e == o.entry) := fun e he => by
    rw [Bool.eq_iff_iff, beq_iff_eq]
    exact ⟨fun hm => eq_of_matchesWord he (entry_mem o) hm h, fun heq => heq ▸ h⟩
  rw [List.filter_congr honly]
  cases o <;> rfl

theorem filter_table_of_no_match {w : Word} (h : ∀ o : Opcode, ¬o.entry.matchesWord w = true) :
    decoderTable.filter (fun e => e.matchesWord w) = [] := by
  refine List.filter_eq_nil_iff.mpr fun e he => ?_
  obtain ⟨o, -, rfl⟩ := List.mem_map.mp he
  exact h o

/-- Settles O4: the rows that match are the one that matches, or none. -/
theorem decoderEntriesNeverOverlap : Obligations.DecoderEntriesNeverOverlap := by
  intro w
  by_cases h : ∃ o : Opcode, o.entry.matchesWord w = true
  · obtain ⟨o, ho⟩ := h
    rw [filter_table_of_matches ho]
    exact le_refl 1
  · rw [filter_table_of_no_match (not_exists.mp h)]
    exact Nat.zero_le 1

/-! ### The decoder by its matching entry (R113) -/

theorem decode_of_matches {o : Opcode} {w : Word} (h : o.entry.matchesWord w = true) :
    decode w = .ok (o.instr ((w &&& o.entry.mask).setWidth 12)) := by
  rw [decode, filter_table_of_matches h]
  simp only [smallestMask, entry_opcode]

theorem decode_of_no_match {w : Word} (h : ∀ o : Opcode, ¬o.entry.matchesWord w = true) :
    decode w = .error (.noEntry w) := by
  rw [decode, filter_table_of_no_match h]
  rfl

/-- A word that decodes matches a row, and its instruction is read off that row. -/
theorem matches_of_decode {w : Word} {i : Instr} (h : decode w = .ok i) :
    ∃ o : Opcode, o.entry.matchesWord w = true ∧
      i = o.instr ((w &&& o.entry.mask).setWidth 12) := by
  by_cases hm : ∃ o : Opcode, o.entry.matchesWord w = true
  · obtain ⟨o, ho⟩ := hm
    rw [decode_of_matches ho, Except.ok.injEq] at h
    exact ⟨o, ho, h.symm⟩
  · rw [decode_of_no_match (not_exists.mp hm)] at h
    exact absurd h (by simp)

/-! ### Opcode and operand of an instruction (R111, R112) -/

theorem instr_opcode_operand (i : Instr) : i.opcode.instr i.operand = i := by cases i <;> rfl

theorem opcode_instr (o : Opcode) (k : Addr) : (o.instr k).opcode = o := by cases o <;> rfl

/-- The operand given to an opcode is kept when it lies in the operand bits: format `N` has none. -/
theorem operand_instr {o : Opcode} {k : Addr} (h : k &&& operandMask o = k) :
    (o.instr k).operand = k := by
  cases o
  case relint | inhint => exact ((BitVec.and_zero).symm.trans h)
  all_goals rfl

/-- Masking to the bits below `n`. -/
theorem toNat_and_low {m : Nat} (x : BitVec m) (n : Nat) (h : 2 ^ n - 1 < 2 ^ m) :
    (x &&& BitVec.ofNat m (2 ^ n - 1)).toNat = x.toNat % 2 ^ n := by
  rw [BitVec.toNat_and, BitVec.toNat_ofNat, Nat.mod_eq_of_lt h, Nat.and_two_pow_sub_one_eq_mod]

/-- Masking to the bits from `n` on. -/
theorem toNat_and_high {m : Nat} (x : BitVec m) (n : Nat) :
    (x &&& BitVec.allOnes m <<< n).toNat = x.toNat / 2 ^ n * 2 ^ n := by
  rw [← BitVec.shiftLeft_ushiftRight, BitVec.toNat_shiftLeft, BitVec.toNat_ushiftRight,
    Nat.shiftLeft_eq, Nat.shiftRight_eq_div_pow]
  exact Nat.mod_eq_of_lt (lt_of_le_of_lt (Nat.div_mul_le_self _ _) x.isLt)

/-- Format `E10` has the low ten bits. -/
theorem fitsE10_iff (k : Addr) : fitsE10 k = true ↔ k &&& 0o1777 = k := by
  have hlow : (k &&& 0o1777).toNat = k.toNat % 2 ^ 10 := toNat_and_low k 10 (by decide)
  rw [fitsE10, decide_eq_true_iff, ← BitVec.toNat_inj, hlow]
  omega

/-- Format `D9` has the low ten bits but bit 0. -/
theorem fitsD9_iff (k : Addr) : fitsD9 k = true ↔ k &&& 0o1776 = k := by
  have hsplit : k &&& (0o1776 : Addr) = k &&& (0o1777 : Addr) &&& BitVec.allOnes 12 <<< 1 := by
    rw [BitVec.and_assoc]; rfl
  have hlow : (k &&& 0o1777).toNat = k.toNat % 2 ^ 10 := toNat_and_low k 10 (by decide)
  rw [fitsD9, fitsE10, Bool.and_eq_true, decide_eq_true_iff, beq_iff_eq, ← BitVec.toNat_inj, hsplit,
    toNat_and_high, hlow]
  omega

/-- The well-formed instructions are those whose operand lies in the operand bits. -/
theorem wellFormed_iff (i : Instr) :
    i.wellFormed = true ↔ i.operand &&& operandMask i.opcode = i.operand := by
  cases i with
  | relint | inhint => exact iff_of_true rfl rfl
  | tcf k | ca k | cs k => exact iff_of_true rfl BitVec.and_allOnes
  | dxch k => exact fitsD9_iff k
  | ts k => exact fitsE10_iff k

/-! ### Encoding and decoding are inverse (R113, R127, R128) -/

theorem encode_matches (i : Instr) : Laws.EncodeMatches.Statement i := by
  cases i with
  | relint => exact Laws.EncodeMatches.relint
  | inhint => exact Laws.EncodeMatches.inhint
  | tcf k => exact Laws.EncodeMatches.tcf k
  | ca k => exact Laws.EncodeMatches.ca k
  | cs k => exact Laws.EncodeMatches.cs k
  | dxch k => exact Laws.EncodeMatches.dxch k
  | ts k => exact Laws.EncodeMatches.ts k

/-- No row's base has an operand bit set. -/
theorem base_and_operandMask (o : Opcode) : o.entry.base.setWidth 12 &&& operandMask o = 0 := by
  cases o <;> rfl

/-- The operand bits of a well-formed instruction's word are its operand. -/
theorem operandBits_encode {i : Instr} (h : i.wellFormed = true) :
    (encode i &&& i.opcode.entry.mask).setWidth 12 = i.operand := by
  have hk := (wellFormed_iff i).mp h
  calc (encode i &&& i.opcode.entry.mask).setWidth 12
    _ = (i.opcode.entry.base.setWidth 12 ||| i.operand) &&& operandMask i.opcode := by
      rw [encode, BitVec.setWidth_and, BitVec.setWidth_or,
        BitVec.setWidth_setWidth_of_le _ (by decide), BitVec.setWidth_eq, operandMask]
    _ = i.operand := by
      rw [BitVec.and_or_distrib_right, base_and_operandMask, hk]; exact BitVec.zero_or

/-- Settles O1: the word matches its own row, and the operand bits are the operand. -/
theorem decodeOfEncodeIsTheInstruction : Obligations.DecodeOfEncodeIsTheInstruction := by
  intro i hwf
  rw [decode_of_matches (encode_matches i hwf), operandBits_encode hwf, instr_opcode_operand]

/-- Operand bits are among the low twelve, so a 12-bit operand loses none. -/
theorem setWidth_operandBits (o : Opcode) (w : Word) :
    ((w &&& o.entry.mask).setWidth 12).setWidth 15 = w &&& o.entry.mask := by
  have hlt : (w &&& o.entry.mask).toNat < 2 ^ 12 := by
    rw [BitVec.toNat_and]
    exact lt_of_le_of_lt Nat.and_le_right (by cases o <;> decide)
  apply BitVec.eq_of_toNat_eq
  rw [BitVec.toNat_setWidth, BitVec.toNat_setWidth, Nat.mod_eq_of_lt hlt,
    Nat.mod_eq_of_lt (BitVec.isLt _)]

theorem operandBits_and_operandMask (o : Opcode) (w : Word) :
    (w &&& o.entry.mask).setWidth 12 &&& operandMask o = (w &&& o.entry.mask).setWidth 12 := by
  rw [operandMask, ← BitVec.setWidth_and, BitVec.and_assoc, BitVec.and_self]

/-- A word is its opcode bits together with its operand bits. -/
theorem notMask_or_mask (w m : Word) : (w &&& ~~~m) ||| (w &&& m) = w := by
  have hall : ~~~m ||| m = BitVec.allOnes 15 := by
    apply BitVec.eq_of_getLsbD_eq
    intro i hi
    simp [hi]
  rw [← BitVec.and_or_distrib_left, hall, BitVec.and_allOnes]

/-- Settles O2: the opcode bits are the row's base and the operand bits come back as the operand. -/
theorem encodeOfDecodeIsTheWord : Obligations.EncodeOfDecodeIsTheWord := by
  intro w i h
  obtain ⟨o, hmatch, rfl⟩ := matches_of_decode h
  have hoperand := operand_instr (operandBits_and_operandMask o w)
  constructor
  · rw [encode, hoperand, opcode_instr, (matchesWord_iff _ _).mp hmatch, setWidth_operandBits,
      notMask_or_mask]
  · rw [wellFormed_iff, hoperand, opcode_instr, operandBits_and_operandMask]

/-! ### The words of each row as a range (R118) -/

/-- A row whose operand bits are the low `n` matches the `2 ^ n` words from its base. -/
theorem matchesWord_iff_range {e : Entry} {last : Word} (n : Nat)
    (hmask : ~~~e.mask = BitVec.allOnes 15 <<< n) (hbase : e.base.toNat % 2 ^ n = 0)
    (hlast : last.toNat = e.base.toNat + (2 ^ n - 1)) (w : Word) :
    e.matchesWord w = true ↔ e.base ≤ w ∧ w ≤ last := by
  obtain ⟨c, hc⟩ := Nat.dvd_of_mod_eq_zero hbase
  have hpos := Nat.two_pow_pos n
  rw [matchesWord_iff, hmask, ← BitVec.toNat_inj, toNat_and_high, BitVec.le_def, BitVec.le_def,
    hlast, hc, Nat.mul_comm, Nat.mul_left_inj hpos.ne', eq_comm, Nat.div_eq_iff hpos]
  omega

theorem matchesWord_relint (w : Word) : Opcode.relint.entry.matchesWord w = true ↔ w = 0o3 :=
  (matchesWord_iff_range (last := 0o3) 0 rfl rfl rfl w).trans (antisymm_iff.trans eq_comm)

theorem matchesWord_inhint (w : Word) : Opcode.inhint.entry.matchesWord w = true ↔ w = 0o4 :=
  (matchesWord_iff_range (last := 0o4) 0 rfl rfl rfl w).trans (antisymm_iff.trans eq_comm)

theorem matchesWord_tcf (w : Word) :
    Opcode.tcf.entry.matchesWord w = true ↔ 0o10000 ≤ w ∧ w ≤ 0o17777 :=
  matchesWord_iff_range 12 rfl rfl rfl w

theorem matchesWord_ca (w : Word) :
    Opcode.ca.entry.matchesWord w = true ↔ 0o30000 ≤ w ∧ w ≤ 0o37777 :=
  matchesWord_iff_range 12 rfl rfl rfl w

theorem matchesWord_cs (w : Word) :
    Opcode.cs.entry.matchesWord w = true ↔ 0o40000 ≤ w ∧ w ≤ 0o47777 :=
  matchesWord_iff_range 12 rfl rfl rfl w

theorem matchesWord_ts (w : Word) :
    Opcode.ts.entry.matchesWord w = true ↔ 0o54000 ≤ w ∧ w ≤ 0o55777 :=
  matchesWord_iff_range 10 rfl rfl rfl w

/-- Masking to two sets of bits is masking to each. -/
theorem eq_and_or_iff {n : Nat} {x a b c : BitVec n} (hc : c &&& (a ||| b) = c) :
    c = x &&& (a ||| b) ↔ c &&& a = x &&& a ∧ c &&& b = x &&& b := by
  have hleft : (a ||| b) &&& a = a := by ext i; simp +contextual
  have hright : (a ||| b) &&& b = b := by ext i; simp +contextual
  constructor
  · rintro rfl
    rw [BitVec.and_assoc, BitVec.and_assoc, hleft, hright]
    exact ⟨rfl, rfl⟩
  · rintro ⟨ha, hb⟩
    rw [← hc, BitVec.and_or_distrib_left, BitVec.and_or_distrib_left, ha, hb]

/-- DXCH's row matches the odd words of its range: bit 0 of the word is an opcode bit (R117). -/
theorem matchesWord_dxch (w : Word) :
    Opcode.dxch.entry.matchesWord w = true ↔
      0o52000 ≤ w ∧ w ≤ 0o53777 ∧ w.getLsbD 0 = true := by
  have hmask : ~~~Opcode.dxch.entry.mask =
      BitVec.allOnes 15 <<< 10 ||| BitVec.ofNat 15 (2 ^ 1 - 1) := rfl
  rw [matchesWord_iff, hmask, eq_and_or_iff rfl, ← BitVec.toNat_inj, ← BitVec.toNat_inj,
    toNat_and_high w 10, toNat_and_low w 1 (by decide), BitVec.le_def, BitVec.le_def,
    BitVec.getLsbD, Nat.testBit_zero, decide_eq_true_iff]
  show 0o52000 = _ ∧ 1 = _ ↔ 0o52000 ≤ _ ∧ _ ≤ 0o53777 ∧ _
  omega

theorem decode_of_matches_A12 {o : Opcode} {w : Word} (hmask : operandMask o = BitVec.allOnes 12)
    (h : o.entry.matchesWord w = true) : decode w = .ok (o.instr (w.setWidth 12)) := by
  rw [decode_of_matches h, BitVec.setWidth_and, ← operandMask, hmask, BitVec.and_allOnes]

/-- Settles O3: each range is the words of one row, and a word outside all of them has no row. -/
theorem everyWordIsOneOfSevenOrFails : Obligations.EveryWordIsOneOfSevenOrFails := by
  intro w
  split_ifs with hrelint hinhint htcf hca hcs hdxch hts
  · exact decode_of_matches ((matchesWord_relint w).mpr hrelint)
  · exact decode_of_matches ((matchesWord_inhint w).mpr hinhint)
  · exact decode_of_matches_A12 rfl ((matchesWord_tcf w).mpr htcf)
  · exact decode_of_matches_A12 rfl ((matchesWord_ca w).mpr hca)
  · exact decode_of_matches_A12 rfl ((matchesWord_cs w).mpr hcs)
  · exact decode_of_matches ((matchesWord_dxch w).mpr hdxch)
  · exact decode_of_matches ((matchesWord_ts w).mpr hts)
  · refine decode_of_no_match fun o h => ?_
    cases o with
    | relint => exact hrelint ((matchesWord_relint w).mp h)
    | inhint => exact hinhint ((matchesWord_inhint w).mp h)
    | tcf => exact htcf ((matchesWord_tcf w).mp h)
    | ca => exact hca ((matchesWord_ca w).mp h)
    | cs => exact hcs ((matchesWord_cs w).mp h)
    | dxch => exact hdxch ((matchesWord_dxch w).mp h)
    | ts => exact hts ((matchesWord_ts w).mp h)

/-! ### Single words (R111, R117) -/

/-- An odd number is the even one below it with bit 0 set. -/
theorem sub_one_or_one {k : Addr} (hodd : k.toNat % 2 = 1) : (k - 1) ||| 1 = k := by
  have hbit : (k - 1) &&& 1 = 0 := by
    apply BitVec.eq_of_toNat_eq
    rw [BitVec.toNat_and]
    show _ &&& 1 = 0
    rw [Nat.and_one_is_mod]
    bv_omega
  rw [← BitVec.add_eq_or_of_and_eq_zero _ _ hbit, BitVec.sub_add_cancel]

/-- Bit 0 of DXCH's base is set, so an odd operand gives the word of the pair below. -/
theorem encode_dxch_odd {k : Addr} (hodd : k.toNat % 2 = 1) :
    encode (.dxch k) = encode (.dxch (k - 1)) :=
  calc (0o52001 : Word) ||| k.setWidth 15
    _ = 0o52001 ||| ((k - 1).setWidth 15 ||| 1) := by
      conv_lhs => rw [← sub_one_or_one hodd, BitVec.setWidth_or]
      rfl
    _ = 0o52001 ||| (k - 1).setWidth 15 := by
      rw [BitVec.or_comm _ 1, ← BitVec.or_assoc]
      rfl

/-- Settles O5: the word is that of the even operand below, which is well-formed. -/
theorem oddDxchOperandNamesThePairBelow : Obligations.OddDxchOperandNamesThePairBelow := by
  intro k hfits hodd
  have hwf : (Instr.dxch (k - 1)).wellFormed = true := by
    simp only [Instr.wellFormed, fitsD9, fitsE10, Bool.and_eq_true, decide_eq_true_iff,
      beq_iff_eq] at hfits ⊢
    bv_omega
  rw [encode_dxch_odd hodd]
  exact decodeOfEncodeIsTheInstruction _ hwf

/-- Settles O6: each word is its instruction's encoding, and 000006 is in no range. -/
theorem writtenOutWordsDecode : Obligations.WrittenOutWordsDecode :=
  ⟨decodeOfEncodeIsTheInstruction .relint rfl, decodeOfEncodeIsTheInstruction .inhint rfl,
    decodeOfEncodeIsTheInstruction (.tcf 0o4321) rfl, decodeOfEncodeIsTheInstruction (.ca 0o100) rfl,
    decodeOfEncodeIsTheInstruction (.cs 0o4005) rfl, decodeOfEncodeIsTheInstruction (.dxch 0o200) rfl,
    decodeOfEncodeIsTheInstruction (.ts 0o123) rfl, everyWordIsOneOfSevenOrFails 6⟩

end Sys2Proof.Proofs

/-! ## The loads CA and CS (R180 to R183) and NOOP (R126) -/

namespace Sys2Proof.Proofs

open Sys2Proof.Machine

/-! ### The write-back (R183) -/

/-- Storing the word a location holds changes nothing of a canonical memory. -/
theorem writeWord_readWord {n : Nat} {m : Memory} (hm : m.wf n) {i : Nat} (hi : i < n) :
    m.writeWord i (m.readWord i) = m := by
  refine equalReadsMeanEqualMemories n _ m (Memory.writeWord_wf n m i _ hm hi) hm fun j _ => ?_
  by_cases hj : j = i
  · subst hj
    exact Memory.readWord_writeWord_same m j _ hm.1
  · exact Memory.readWord_writeWord_other m i j _ hj

theorem storeErasable_readLoc {s : State} (hmem : s.MemWf) {a : Nat} (ha : a < 0o2000) :
    storeErasable s (locate s a) (readLoc s (locate s a)) = s := by
  obtain ⟨hregion, -, -⟩ := locate_erasable s a ha
  have hword : readLoc s (locate s a) = s.erasable.readWord (locate s a).index := by
    simp only [readLoc, hregion]
  rw [hword, storeErasable, writeWord_readWord hmem.1 (index_erasable_lt s a ha)]

/-- Writing back the value just read changes nothing, but for CYR. -/
theorem memWrite_memRead {s : State} {a : Nat} {v : Reg} (hregs : s.RegsWf) (hmem : s.MemWf)
    (ha : a < 0o2000) (hcyr : a ≠ slotCYR) (hv : memRead s a = .ok v) : memWrite s a v = .ok s := by
  by_cases hreg : a < regLimit
  · rw [memRead_register s a hreg, Except.ok.injEq] at hv
    rw [memWrite_register s a v hreg, ← hv, setReg_reg_self s a hregs hcyr]
  · have hbanked : regLimit ≤ a := Nat.not_lt.mp hreg
    obtain ⟨hregion, -, -⟩ := locate_erasable s a ha
    rw [memRead_banked s a hbanked (lt_trans ha (by decide)) (by simp [hregion]),
      Except.ok.injEq] at hv
    rw [memWrite_erasable s a v hbanked ha, ← hv, BitVec.setWidth_setWidth_of_le _ (by decide),
      BitVec.setWidth_eq, storeErasable_readLoc hmem ha]

/-- A write of A moves no location. -/
theorem locate_setReg_A (s : State) (v : Reg) (a : Nat) :
    locate (setReg s slotA v) a = locate s a := by
  unfold locate ebField fbField
  rw [slot_setReg_other s slotA slotEB v (by decide), slot_setReg_other s slotA slotFB v (by decide),
    setReg_sb]

/-- A write of A is seen by no read but that of A. -/
theorem memRead_setReg_A (s : State) (v : Reg) {a : Nat} (ha : a ≠ slotA) :
    memRead (setReg s slotA v) a = memRead s a := by
  have hreg : reg (setReg s slotA v) a = reg s a :=
    reg_setReg_other s slotA a v (by simp [Touches, ha])
  have hloc : ∀ l, readLoc (setReg s slotA v) l = readLoc s l := fun l => by
    rw [readLoc, readLoc, setReg_erasable, setReg_fixed]
  simp only [memRead, bankedRead, hreg, locate_setReg_A, hloc, setReg_params]

/-- A is a full container: it reads back what is written to it. -/
theorem reg_setReg_A (s : State) (v : Reg) : reg (setReg s slotA v) slotA = v :=
  reg_setReg_same s slotA v (by decide) (by decide)

/-- Two changes within one frame make one. -/
theorem changedOnly_trans {regs words : List Nat} {s t u : State} (hst : ChangedOnly regs words s t)
    (htu : ChangedOnly regs words t u) : ChangedOnly regs words s u := by
  obtain ⟨hregs, hbytes, hfixed, hcontrol⟩ := hst
  obtain ⟨hregs', hbytes', hfixed', hcontrol'⟩ := htu
  refine ⟨fun a ha hn => (hregs' a ha hn).trans (hregs a ha hn),
    fun c hc => (hbytes' c hc).trans (hbytes c hc), hfixed'.trans hfixed, ?_⟩
  simp_all only [SameControl, and_self]

theorem changedOnly_setReg_A (s : State) (v : Reg) : ChangedOnly [slotA] [] s (setReg s slotA v) :=
  changedOnly_setReg (by simp [Touches])

/-! ### CA and CS (R180 to R183) -/

theorem exec_ca (k : Addr) (s : State) : exec (.ca k) s = loadA (fun v => v) k s := by rfl

theorem exec_cs (k : Addr) (s : State) : exec (.cs k) s = loadA (fun v => ~~~v) k s := by rfl

theorem loadA_fixed {f : Reg → Reg} {k : Addr} {s : State} {v : Reg} (hk : 0o2000 ≤ k.toNat)
    (hv : memRead s k.toNat = .ok v) : loadA f k s = .next (setReg s slotA (f v)) := by
  have hfixed : ¬isErasableOperand k = true := by rw [isErasableOperand_iff]; omega
  simp only [loadA, hv, if_neg hfixed]

theorem loadA_erasable {f : Reg → Reg} {k : Addr} {s : State} {v : Reg} (hk : k.toNat < 0o2000)
    (hv : memRead s k.toNat = .ok v) :
    loadA f k s = orFault (memWrite (setReg s slotA (f v)) k.toNat v) := by
  simp only [loadA, hv, if_pos ((isErasableOperand_iff k).mpr hk)]

/-- Of a register operand both writes are register writes. -/
theorem loadA_register (f : Reg → Reg) {k : Addr} (s : State) (hk : k.toNat < regLimit) :
    loadA f k s = .next (setReg (setReg s slotA (f (reg s k.toNat))) k.toNat (reg s k.toNat)) := by
  rw [loadA_erasable (lt_trans hk (by decide)) (memRead_register s _ hk), memWrite_register _ _ _ hk]
  rfl

/-- Any other operand, of either kind: the load changes A alone. -/
theorem loadA_of_other {f : Reg → Reg} {k : Addr} {s : State} {v : Reg} (hregs : s.RegsWf)
    (hmem : s.MemWf) (hA : k.toNat ≠ slotA) (hcyr : k.toNat ≠ slotCYR)
    (hv : memRead s k.toNat = .ok v) : loadA f k s = .next (setReg s slotA (f v)) := by
  by_cases hk : k.toNat < 0o2000
  · have hv' := (memRead_setReg_A s (f v) hA).trans hv
    rw [loadA_erasable hk hv, memWrite_memRead (regsWf_setReg s _ _ hregs) (memWf_setReg s _ _ hmem)
      hk hcyr hv']
    rfl
  · exact loadA_fixed (Nat.not_lt.mp hk) hv

/-- What CA and CS do of a readable operand: A gets `f` of the value read, but for the operand A
itself, which the write-back restores; CYR is edited again; nothing else changes. -/
theorem loadA_readable (f : Reg → Reg) {k : Addr} {s : State} (hregs : s.RegsWf) (hmem : s.MemWf)
    (hread : Readable s k.toNat) :
    ∃ v t, memRead s k.toNat = .ok v ∧ loadA f k s = .next t ∧
      reg t slotA = (if k.toNat = slotA then v else f v) ∧
      (k.toNat = slotCYR → reg t slotCYR = rotr15 v) ∧
      ChangedOnly (if k.toNat = slotCYR then [slotA, slotCYR] else [slotA]) [] s t := by
  by_cases hA : k.toNat = slotA
  · have hk : k.toNat < regLimit := by rw [hA]; decide
    refine ⟨_, _, memRead_register s _ hk, loadA_register f s hk, ?_, ?_, ?_⟩
    all_goals rw [hA]
    · exact reg_setReg_A _ _
    · exact fun h => absurd h (by decide)
    · exact changedOnly_trans (changedOnly_setReg_A _ _) (changedOnly_setReg_A _ _)
  by_cases hcyr : k.toNat = slotCYR
  · have hk : k.toNat < regLimit := by rw [hcyr]; decide
    refine ⟨_, _, memRead_register s _ hk, loadA_register f s hk, ?_, fun _ => ?_, ?_⟩
    all_goals rw [hcyr]
    · exact (reg_setReg_other _ slotCYR slotA _ (by decide)).trans (reg_setReg_A _ _)
    · exact reg_setReg_cyr _ _
    · exact changedOnly_trans (changedOnly_setReg (by simp [Touches]))
        (changedOnly_setReg (by simp [Touches]))
  · obtain ⟨v, hv⟩ := memRead_readable s k.toNat hread
    refine ⟨v, _, hv, loadA_of_other hregs hmem hA hcyr hv, ?_, fun h => absurd h hcyr, ?_⟩
    · rw [if_neg hA, reg_setReg_A]
    · rw [if_neg hcyr]
      exact changedOnly_setReg_A s _

/-- Settles O23: with the identity for `f` the operand A is no exception. -/
theorem caLoadsAndWritesBack : Obligations.CaLoadsAndWritesBack := by
  refine fun k => ⟨decodeOfEncodeIsTheInstruction (.ca k) rfl, rfl, fun s hregs hmem hread => ?_⟩
  simpa only [exec_ca, ite_self] using loadA_readable (fun v => v) hregs hmem hread

/-- Settles O24: the load with the complement for `f`. -/
theorem csLoadsTheComplement : Obligations.CsLoadsTheComplement := fun k =>
  ⟨decodeOfEncodeIsTheInstruction (.cs k) rfl, rfl, fun _ hregs hmem hread =>
    loadA_readable (fun v => ~~~v) hregs hmem hread⟩

/-! ### NOOP (R126) -/

/-- CA 0 puts A into A twice. -/
theorem exec_ca_zero (s : State) : exec (.ca 0) s = .next s := by
  have hself : setReg s slotA (reg s slotA) = s := putSlot_self s slotA
  rw [exec_ca, loadA_register _ s (by decide)]
  exact congrArg Host.Outcome.next ((congrArg (setReg · slotA _) hself).trans hself)

theorem noopWord_erasable {p : PseudoAddr} (h : isErasable p = true) :
    noopWord p = .ok (encode (.ca 0)) := by
  rw [noopWord, if_pos h]

theorem noopWord_fixed {p q : PseudoAddr} {k : Addr} (hp : isFixed p = true)
    (hq : nextValid p = .ok q) (hk : asOperand q = .ok k) : noopWord p = .ok (encode (.tcf k)) := by
  obtain ⟨-, hnot⟩ : isValid p = true ∧ isErasable p = false := by simpa [isFixed] using hp
  simp [noopWord, hnot, hq, hk]

/-- Settles O33: CA 0 in every state, and the word of each half of memory. -/
theorem noopChangesNothing : Obligations.NoopChangesNothing :=
  ⟨exec_ca_zero, fun _ => noopWord_erasable, fun _ _ _ => noopWord_fixed⟩

end Sys2Proof.Proofs

/-! ## The execution cycle (R140 to R147) -/

namespace Sys2Proof.Proofs

open Sys2Proof.Machine

/-! ### Fetch and decode (R141, R142) -/

/-- The only decode error names the word that was decoded. -/
theorem eq_noEntry_of_decode {w : Word} {e : DecodeError} (h : decode w = .error e) :
    e = .noEntry w := by
  have hnone : ∀ o : Opcode, ¬o.entry.matchesWord w = true := fun o ho => by
    rw [decode_of_matches ho] at h
    exact absurd h (by simp)
  rw [decode_of_no_match hnone, Except.error.injEq] at h
  exact h.symm

theorem fetchInstr_of_decode {s : State} {v : Reg} {i : Instr} (hread : memRead s (zAddr s) = .ok v)
    (hdecode : decode (v.setWidth 15) = .ok i) : fetchInstr s = .ok i := by
  simp [fetchInstr, fetchWord, hread, hdecode]

theorem fetchInstr_of_undecodable {s : State} {v : Reg} {e : DecodeError}
    (hread : memRead s (zAddr s) = .ok v) (hdecode : decode (v.setWidth 15) = .error e) :
    fetchInstr s = .error (.decodeFailure (v.setWidth 15) (zAddr s)) := by
  obtain rfl := eq_noEntry_of_decode hdecode
  simp [fetchInstr, fetchWord, hread, hdecode]

/-! ### The step by what its phase 1 runs (R140, R144) -/

theorem step_of_seqStack {s : State} {q : SeqName} {rest : List SeqName} (hf : s.fault = none)
    (hs : s.seqStack = q :: rest) : step s = finishStep 1 (runSeq q (popped s rest)) := by
  simp only [step, cycle, hf, hs, seqTiming]

/-- A fetch that faults ends the step, which has then reached nothing but its own start. -/
theorem step_of_fetchInstr_error {s : State} {f : Fault} (hf : s.fault = none)
    (hs : s.seqStack = []) (hfetch : fetchInstr s = .error f) :
    step s = .fault f ∧ reached exec s = s := by
  simp only [step, cycle, reached, hf, hs, hfetch, and_self]

/-- Settles O34: the fetch answers the decoded instruction, and the fetching branch runs it. -/
theorem stepRunsTheDecodedInstruction : Obligations.StepRunsTheDecodedInstruction := by
  intro s v i hf hs hread hdecode
  have hfetch : fetchInstr s = .ok i := fetchInstr_of_decode hread hdecode
  simp only [step, cycle, hf, hs, hfetch]
  rfl

/-- Settles O35: `runSeq` on the popped state is the top sequence with its child pushed. -/
theorem stepRunsTheTopSequence : Obligations.StepRunsTheTopSequence := fun _ _ _ hf hs =>
  step_of_seqStack hf hs

/-- Settles O36: the fetch raises before anything is written, and no step follows a fault. -/
theorem undecodableWordEndsTheRun : Obligations.UndecodableWordEndsTheRun := by
  intro s v e hf hs hread hdecode
  have hfetch := fetchInstr_of_undecodable hread hdecode
  obtain ⟨hstep, hreached⟩ := step_of_fetchInstr_error hf hs hfetch
  have hsettle := settle_of_step_fault hf hstep
  refine ⟨hstep, ?_, fun n => ?_⟩
  · rw [hsettle, hreached]; rfl
  · rw [hsettle]; exact runFuel_of_fault n (raise_fault _ _)

/-! ### The step's timing (R44, R145) -/

/-- Phase 1 adds nothing to the MCT total: phase 2 counts the whole step. -/
theorem Phase1Ends.mct {s u : State} {n : Nat} (h : Phase1Ends s n u) : u.mct = s.mct := by
  rcases h with ⟨q, rest, -, -, rfl⟩ | ⟨-, i, -, he, -⟩
  · obtain ⟨-, -, -, hmct, -⟩ := runSeq_control q (popped s rest)
    exact hmct
  · obtain ⟨-, -, -, -, hmct, -⟩ := exec_control i (advanceZ s) u he
    exact hmct.trans (advanceZ_mct s)

/-- Settles O38: the end of the step adds what its phase 1 took. -/
theorem stepAddsItsTiming : Obligations.StepAddsItsTiming := by
  intro s t h
  obtain ⟨-, n, u, hu, hend⟩ := step_next_phases h
  obtain ⟨-, -, -, hadd, -⟩ := finishStep_control n u t hend
  have hmct : t.mct = s.mct + n := by rw [hadd, hu.mct]
  obtain ⟨hmin, hmax⟩ := hu.timing_bounds
  refine ⟨fun q rest hs => ?sequence, fun hs => ?instruction, by omega, by omega⟩
  case sequence =>
    rcases hu with ⟨_, _, -, rfl, -⟩ | ⟨hnil, -⟩
    · exact hmct
    · cases hnil.symm.trans hs
  case instruction =>
    rcases hu with ⟨_, _, hcons, -⟩ | ⟨-, i, hi, -, rfl⟩
    · cases hcons.symm.trans hs
    · exact ⟨i, hi, hmct⟩

/-! ### What a sequence leaves alone (R200) -/

/-- The counter cell that a sequence increments (R201 to R205). -/
def timeCell (p : Config.Params) : SeqName → Nat
  | .pincTime1 => p.addrTime1
  | .pincTime2 => p.addrTime2
  | .pincTime3 => p.addrTime3
  | .pincTime4 => p.addrTime4
  | .pincTime5 => p.addrTime5

theorem timeCell_mem (p : Config.Params) (q : SeqName) :
    timeCell p q ∈ [p.addrTime1, p.addrTime2, p.addrTime3, p.addrTime4, p.addrTime5] := by
  cases q <;> simp [timeCell]

theorem plainSlot_timeCell {p : Config.Params} (h : p.Valid) (q : SeqName) :
    Config.PlainSlot (timeCell p q) := by
  obtain ⟨hplain, -⟩ := h
  exact hplain _ (by cases q <;> simp [timeCell])

/-- A posting writes no register, so only the increment does. -/
theorem regs_pincPosting (s : State) (a i : Nat) :
    (pincPosting s a i).1.regs = (increment s a).1.regs := by
  unfold pincPosting
  dsimp only
  split <;> simp

theorem regs_executeSeq (q : SeqName) (s : State) :
    (executeSeq q s).1.regs = (increment s (timeCell s.params q)).1.regs := by
  cases q with
  | pincTime1 => rfl
  | pincTime2 => rfl
  | pincTime3 => exact regs_pincPosting s _ _
  | pincTime4 => exact regs_pincPosting s _ _
  | pincTime5 => exact regs_pincPosting s _ _

/-- Phase 1 of a sequence step writes the sequence's own cell and no other register. -/
theorem reg_runSeq_other {s : State} (h : s.params.Valid) (q : SeqName) {a : Nat}
    (ha : a < regLimit) (hcell : a ≠ timeCell s.params q) : reg (runSeq q s) a = reg s a := by
  obtain ⟨-, -, -, -, -, -, -, -, hreg, -⟩ := runSeq_control q s
  obtain ⟨-, -, hframe, -⟩ := increment_plain s (plainSlot_timeCell h q)
  calc reg (runSeq q s) a
    _ = reg (executeSeq q s).1 a := hreg a
    _ = reg (increment s (timeCell s.params q)).1 a := reg_congr _ _ (regs_executeSeq q s) a
    _ = reg s a := hframe a ha (by simpa using hcell)

/-! ### The end of a step with interrupts off (R233) -/

/-- With interrupts off no interrupt is taken, so the step ends with phase 2. -/
theorem finishStep_of_intsOff {s : State} (n : Nat) (h : s.intsOff = true) :
    finishStep n s = .next (phase2 n s) := by
  have hnone : deliverable (phase2 n s) = none := if_pos (by rw [phase2_intsOff, h])
  simp only [finishStep, deliverInterrupt, hnone, orFault]

/-- Settles O42: phase 1 writes the top sequence's cell alone, Z is no such cell, and with
interrupts off the rest of the step writes no register and no memory. -/
theorem sequenceStepsLeaveZ : Obligations.SequenceStepsLeaveZ := by
  intro s q rest hf hs hvalid
  have hstep := step_of_seqStack hf hs
  obtain ⟨-, hints, -, hmct, herasable, hfixed, -⟩ := runSeq_control q (popped s rest)
  have hother : ∀ a < 0o61, a ≠ timeCell s.params q →
      reg (runSeq q (popped s rest)) a = reg s a := fun a ha hcell =>
    (reg_runSeq_other (s := popped s rest) hvalid q ha hcell).trans
      (reg_congr _ _ (popped_regs s rest) a)
  have hZ : reg (runSeq q (popped s rest)) slotZ = reg s slotZ := by
    obtain ⟨-, -, -, -, hne, -⟩ := plainSlot_ne (plainSlot_timeCell hvalid q)
    exact hother slotZ (by decide) hne.symm
  have hframe : ∀ a < 0o61, a ∉ [s.params.addrTime1, s.params.addrTime2, s.params.addrTime3,
      s.params.addrTime4, s.params.addrTime5] →
      reg (runSeq q (popped s rest)) a = reg s a := fun a ha hcells =>
    hother a ha fun e => hcells (e ▸ timeCell_mem s.params q)
  refine ⟨hstep, hZ, hframe, herasable, hfixed, hints, fun hoff => ?_⟩
  have hend := finishStep_of_intsOff 1 (hints.trans hoff)
  have hreg2 : ∀ a, reg (phase2 1 (runSeq q (popped s rest))) a =
      reg (runSeq q (popped s rest)) a := reg_congr _ _ (phase2_regs 1 _)
  refine ⟨_, hstep.trans hend, (hreg2 slotZ).trans hZ, ?_, ?_,
    fun a ha hcells => (hreg2 a).trans (hframe a ha hcells), ?_, ?_⟩
  · rw [phase2_mct, hmct, popped_mct]
  · rw [phase2_intsOff, hints, popped_intsOff, hoff]
  · rw [phase2_erasable, herasable, popped_erasable]
  · rw [phase2_fixed, hfixed, popped_fixed]

end Sys2Proof.Proofs

/-! ## Interrupt control (R160, R161) -/

namespace Sys2Proof.Proofs

open Sys2Proof.Machine

/-! ### The meanings -/

theorem exec_relint (s : State) : exec .relint s = .next { s with intsOff := false } := by rfl

theorem exec_inhint (s : State) : exec .inhint s = .next { s with intsOff := true } := by rfl

/-- Settles O20: the word matches RELINT's decoder entry, and the meaning is one field update. -/
theorem relintEnablesInterrupts : Obligations.RelintEnablesInterrupts :=
  ⟨decode_of_matches ((matchesWord_relint 0o3).mpr rfl), rfl, exec_relint⟩

/-- Settles O21: the word matches INHINT's decoder entry, and the meaning is one field update. -/
theorem inhintInhibitsInterrupts : Obligations.InhintInhibitsInterrupts :=
  ⟨decode_of_matches ((matchesWord_inhint 0o4).mpr rfl), rfl, exec_inhint⟩

/-! ### The step that fetches RELINT or INHINT (R140, R233) -/

/-- An instruction that completes leaves only the end of the step. -/
theorem step_of_exec_next {s u : State} {i : Instr} (hf : s.fault = none) (hs : s.seqStack = [])
    (hfetch : fetchInstr s = .ok i) (hexec : exec i (advanceZ s) = .next u) :
    step s = finishStep (timing i) u := by
  simp only [step, cycle, hf, hs, hfetch, hexec]

/-- With interrupts enabled, the lowest pending index is the deliverable one. -/
theorem deliverable_of_lowest {s : State} {i : Nat} (hoff : s.intsOff = false) (hi : i ∈ s.pending)
    (hlow : ∀ j ∈ s.pending, i ≤ j) : deliverable s = some i := by
  unfold deliverable
  rw [hoff, if_neg Bool.false_ne_true]
  exact List.min?_eq_some_iff.mpr ⟨hi, hlow⟩

/-- With interrupts enabled, the step ends by taking the lowest pending interrupt. -/
theorem finishStep_of_lowest {s : State} {i : Nat} (n : Nat) (hoff : s.intsOff = false)
    (hi : i ∈ s.pending) (hlow : ∀ j ∈ s.pending, i ≤ j) :
    finishStep n s = orFault (deliver (phase2 n s) i) := by
  have hdeliverable : deliverable (phase2 n s) = some i :=
    deliverable_of_lowest (by rwa [phase2_intsOff]) (by rwa [phase2_pending])
      (by rwa [phase2_pending])
  simp only [finishStep, deliverInterrupt, hdeliverable]

/-- Settles O48: phase 1 has cleared `intsOff` before the step ends, and every pending
index still is pending. -/
theorem relintDeliversInItsOwnStep : Obligations.RelintDeliversInItsOwnStep := by
  intro s i hf hs hfetch hi hlow
  have hphase1 := step_of_exec_next hf hs hfetch (exec_relint _)
  exact hphase1.trans
    (finishStep_of_lowest 1 rfl (by rwa [advanceZ_pending]) (by rwa [advanceZ_pending]))

/-- Settles O49: phase 1 has set `intsOff` before the step ends, so phase 2 ends the step, and it
writes no register and no memory. -/
theorem inhintHoldsPendingOff : Obligations.InhintHoldsPendingOff := by
  intro s hf hs hfetch
  have hstep : step s = .next (phase2 1 { advanceZ s with intsOff := true }) :=
    (step_of_exec_next hf hs hfetch (exec_inhint _)).trans (finishStep_of_intsOff 1 rfl)
  have hreg : ∀ a, reg (phase2 1 { advanceZ s with intsOff := true }) a = reg (advanceZ s) a :=
    reg_congr _ _ (phase2_regs 1 _)
  refine ⟨_, hstep, ?_, ?_, ?_, (hreg slotZ).trans (reg_setZ s _),
    fun a _ ha => (hreg a).trans (reg_setZ_other s _ a ha), ?_, ?_⟩
  · rw [phase2_intsOff]
  · rw [phase2_pending, advanceZ_pending]
  · rw [phase2_mct, advanceZ_mct]
  · rw [phase2_erasable, advanceZ_erasable]
  · rw [phase2_fixed, advanceZ_fixed]

end Sys2Proof.Proofs

/-! ## The transfer TCF (R170) -/

namespace Sys2Proof.Proofs

open Sys2Proof.Machine

theorem exec_tcf (k : Addr) (s : State) : exec (.tcf k) s = .next (setZ s (k.setWidth 16)) := by rfl

/-- A CPU address has no bit above bit 11, so the mask of Z (R22) keeps it whole. -/
theorem setWidth_addr_and_zMask (k : Addr) : k.setWidth 16 &&& (0o7777 : Reg) = k.setWidth 16 := by
  have hlow : (k.setWidth 16 &&& (0o7777 : Reg)).toNat = (k.setWidth 16).toNat % 2 ^ 12 :=
    toNat_and_low _ 12 (by decide)
  have hlt : (k.setWidth 16).toNat < 2 ^ 12 := by
    rw [BitVec.toNat_setWidth_of_le (by decide)]
    exact k.isLt
  exact BitVec.eq_of_toNat_eq (hlow.trans (Nat.mod_eq_of_lt hlt))

theorem reg_setZ_addr (s : State) (k : Addr) :
    reg (setZ s (k.setWidth 16)) slotZ = k.setWidth 16 := by
  rw [reg_setZ, setWidth_addr_and_zMask]

/-- Z is neither BB nor a side of its mirror, so a write to Z changes Z alone. -/
theorem changedOnly_setZ (s : State) (v : Reg) : ChangedOnly [slotZ] [] s (setZ s v) :=
  changedOnly_setReg (by simp [Touches])

/-- Settles O22: the word is TCF's encoding, and the meaning is one write of `k` to Z. -/
theorem tcfJumpsAnywhere : Obligations.TcfJumpsAnywhere := fun k =>
  ⟨decodeOfEncodeIsTheInstruction (.tcf k) rfl, rfl, fun s =>
    ⟨_, exec_tcf k s, reg_setZ_addr s k, changedOnly_setZ s _⟩⟩

end Sys2Proof.Proofs

/-! ## CA and CS by the word read and by the fault (R180 to R182, R222) -/

namespace Sys2Proof.Proofs

open Sys2Proof.Machine

/-! ### The operand's read -/

theorem memRead_of_bankedRead {s : State} {a : Nat} {w : Word} (ha : regLimit ≤ a)
    (hw : bankedRead s a = .ok w) : memRead s a = .ok (w.setWidth 16) := by
  rw [memRead, if_neg (Nat.not_lt.mpr ha), hw]

/-- Of a CPU address only a fixed location can be unreadable, and only for its bank. -/
theorem not_readable_iff {s : State} {a : Nat} (ha : a < cpuLimit) :
    ¬Readable s a ↔ regLimit ≤ a ∧ (locate s a).region = .fixed ∧
      s.params.fixedBankLimit ≤ (locate s a).bank := by
  simp only [Readable, ha, true_and, not_or, Classical.not_imp, Nat.not_lt]

theorem memRead_of_not_readable {s : State} {a : Nat} (ha : a < cpuLimit) (h : ¬Readable s a) :
    memRead s a = .error (.outOfRange a (some (locate s a).bank)) := by
  obtain ⟨hbanked, hbank⟩ := (not_readable_iff ha).mp h
  rw [memRead, if_neg (Nat.not_lt.mpr hbanked), bankedRead_inside s ha, if_pos hbank]

/-- An unreadable CPU address lies above erasable memory. -/
theorem fixed_of_not_readable {s : State} {a : Nat} (ha : a < cpuLimit) (h : ¬Readable s a) :
    0o2000 ≤ a := by
  obtain ⟨-, hfixed, -⟩ := (not_readable_iff ha).mp h
  refine Nat.not_lt.mp fun hlow => ?_
  obtain ⟨herasable, -, -⟩ := locate_erasable s a hlow
  exact absurd (hfixed.symm.trans herasable) (by decide)

/-! ### The load by the answer of that read -/

theorem loadA_of_memRead_error {f : Reg → Reg} {k : Addr} {s : State} {e : Fault}
    (he : memRead s k.toNat = .error e) : loadA f k s = .fault e := by
  simp only [loadA, he]

/-- A load whose read succeeds completes, and the write-back disturbs A only when A is the operand. -/
theorem loadA_of_memRead_ok (f : Reg → Reg) {k : Addr} {s : State} {v : Reg}
    (hv : memRead s k.toNat = .ok v) :
    ∃ t, loadA f k s = .next t ∧ (k.toNat ≠ slotA → reg t slotA = f v) := by
  by_cases hk : k.toNat < 0o2000
  · rw [loadA_erasable hk hv]
    by_cases hreg : k.toNat < regLimit
    · rw [memWrite_register _ _ _ hreg]
      refine ⟨_, rfl, fun hA => ?_⟩
      have hother : ¬Touches k.toNat slotA := by simp [Touches, hA.symm]
      rw [reg_setReg_other _ _ _ _ hother, reg_setReg_A]
    · rw [memWrite_erasable _ _ _ (Nat.not_lt.mp hreg) hk]
      refine ⟨_, rfl, fun _ => ?_⟩
      rw [reg_storeErasable, reg_setReg_A]
  · exact ⟨_, loadA_fixed (Nat.not_lt.mp hk) hv, fun _ => reg_setReg_A s _⟩

/-- The read is the only part of a load that can fault. -/
theorem not_readable_of_loadA_fault {f : Reg → Reg} {k : Addr} {s : State} {e : Fault}
    (he : loadA f k s = .fault e) : ¬Readable s k.toNat := fun hread => by
  obtain ⟨v, hv⟩ := memRead_readable s k.toNat hread
  obtain ⟨t, ht, -⟩ := loadA_of_memRead_ok f hv
  exact absurd (ht.symm.trans he) (by simp)

theorem loadA_of_not_readable (f : Reg → Reg) {k : Addr} {s : State} (h : ¬Readable s k.toNat) :
    loadA f k s = .fault (.outOfRange k.toNat (some (locate s k.toNat).bank)) :=
  loadA_of_memRead_error (memRead_of_not_readable k.isLt h)

/-- Settles O26: the read alone decides whether CA and CS fault. -/
theorem loadsFaultOnlyOnBanksOutOfRange : Obligations.LoadsFaultOnlyOnBanksOutOfRange := by
  refine fun s k => ⟨fun h => ?_, fun e he => ?_⟩
  · obtain ⟨-, -, hbank⟩ := (not_readable_iff k.isLt).mp h
    exact ⟨loadA_of_not_readable _ h, loadA_of_not_readable _ h, fixed_of_not_readable k.isLt h,
      hbank⟩
  · rw [exec_ca, exec_cs] at he
    exact he.elim not_readable_of_loadA_fault not_readable_of_loadA_fault

/-! ### A word of memory in A (R45, R181, R182) -/

/-- Zero-extended, a word has bit 15 clear, so its own sign bit reads as positive overflow. -/
theorem ovf_setWidth (w : Word) :
    ovf (w.setWidth 16) = if w.getLsbD 14 then .positive else .none := by
  have h15 : (w.setWidth 16).getLsbD 15 = false := by simp
  have h14 : (w.setWidth 16).getLsbD 14 = w.getLsbD 14 := by simp
  rw [ovf, h15, h14]
  cases w.getLsbD 14 <;> rfl

/-- The complement sets bit 15 and inverts bit 14: a negative word reads as negative overflow. -/
theorem ovf_not_setWidth (w : Word) :
    ovf (~~~(w.setWidth 16)) = if w.getLsbD 14 then .negative else .none := by
  have h15 : (~~~(w.setWidth 16)).getLsbD 15 = true := by simp
  have h14 : (~~~(w.setWidth 16)).getLsbD 14 = !w.getLsbD 14 := by simp
  rw [ovf, h15, h14]
  cases w.getLsbD 14 <;> rfl

/-- A word of memory, of either kind, is loaded through `f` with a leading 0 and no sign extension. -/
theorem loadA_of_bankedRead (f : Reg → Reg) {k : Addr} {s : State} {w : Word}
    (hk : regLimit ≤ k.toNat) (hw : bankedRead s k.toNat = .ok w) :
    ∃ t, loadA f k s = .next t ∧ reg t slotA = f (w.setWidth 16) := by
  obtain ⟨t, ht, hA⟩ := loadA_of_memRead_ok f (memRead_of_bankedRead hk hw)
  have hne : k.toNat ≠ slotA := Nat.ne_of_gt (lt_of_lt_of_le (by decide) hk)
  exact ⟨t, ht, hA hne⟩

/-- Settles O25: the zero extension fixes bit 15, so the word's sign bit decides the overflow. -/
theorem loadsNeverExtendTheSign : Obligations.LoadsNeverExtendTheSign := by
  intro s k w hk hw
  obtain ⟨t, ht, hA⟩ := loadA_of_bankedRead (fun v => v) hk hw
  obtain ⟨u, hu, hA'⟩ := loadA_of_bankedRead (fun v => ~~~v) hk hw
  exact ⟨⟨t, ht, hA, hA ▸ ovf_setWidth w⟩, ⟨u, hu, hA', hA' ▸ ovf_not_setWidth w⟩⟩

end Sys2Proof.Proofs

/-! ## The exchange DXCH and the store TS (R190 to R193) -/

namespace Sys2Proof.Proofs

open Sys2Proof.Machine

/-! ### Frames and reads of memory after a write -/

theorem changedOnly_mono {regs regs' words words' : List Nat} {s t : State} (hregs : regs ⊆ regs')
    (hwords : words ⊆ words') (h : ChangedOnly regs words s t) : ChangedOnly regs' words' s t := by
  obtain ⟨hreg, hbyte, hrest⟩ := h
  exact ⟨fun a ha hn => hreg a ha fun hm => hn (hregs hm), fun c hc => hbyte c fun hm => hc (hwords hm),
    hrest⟩

/-- A chain of changes within a frame goes on with a register write that touches nothing outside it. -/
theorem changedOnly_then_setReg {regs words : List Nat} {s t : State} {a : Nat} (v : Reg)
    (hst : ChangedOnly regs words s t) (h : ∀ b, Touches a b → b ∈ regs) :
    ChangedOnly regs words s (setReg t a v) :=
  changedOnly_trans hst
    (changedOnly_mono (List.Subset.refl _) (List.nil_subset _) (changedOnly_setReg h))

theorem changedOnly_then_storeErasable {regs words : List Nat} {s t : State} {l : Loc} (w : Word)
    (hst : ChangedOnly regs words s t) (h : l.index ∈ words) :
    ChangedOnly regs words s (storeErasable t l w) :=
  changedOnly_trans hst
    (changedOnly_mono (List.nil_subset _) (by simpa using h)
      (changedOnly_storeErasable t l w))

theorem changedOnly_refl (regs words : List Nat) (s : State) : ChangedOnly regs words s s :=
  ⟨fun _ _ _ => rfl, fun _ _ => rfl, rfl, rfl, rfl, rfl, rfl, rfl, rfl, rfl, rfl⟩

theorem readLoc_setReg (s : State) (a : Nat) (v : Reg) (l : Loc) :
    readLoc (setReg s a v) l = readLoc s l := by
  rw [readLoc, readLoc, setReg_erasable, setReg_fixed]

/-- A store leaves every other word of erasable memory alone. -/
theorem readLoc_storeErasable_other (s : State) {l l' : Loc} (w : Word) (hl : l'.region = .erasable)
    (hne : l'.index ≠ l.index) : readLoc (storeErasable s l w) l' = readLoc s l' := by
  simp only [readLoc, hl, storeErasable_erasable]
  exact Memory.readWord_writeWord_other _ _ _ _ hne

theorem memRead_word (s : State) {a : Nat} (ha : regLimit ≤ a) (ha' : a < 0o2000) :
    memRead s a = .ok ((readLoc s (locate s a)).setWidth 16) :=
  memRead_of_bankedRead ha (bankedRead_erasable s ha')

/-- A read below 02000 always completes. -/
theorem memRead_completes (s : State) {a : Nat} (ha : a < 0o2000) : ∃ v, memRead s a = .ok v := by
  by_cases hreg : a < regLimit
  · exact ⟨_, memRead_register s a hreg⟩
  · exact ⟨_, memRead_word s (Nat.not_lt.mp hreg) ha⟩

/-! ### L, the 15-bit half of the exchange (R24) -/

/-- L keeps 15 bits of what is written to it. -/
theorem reg_setReg_L (s : State) (v : Reg) : reg (setReg s slotL v) slotL = v &&& 0o77777 :=
  reg_setReg_same s slotL v (by decide) (by decide)

/-- A value within a mask of at most 15 bits passes through L whole. -/
theorem and_mask15_of_masked {v m : Reg} (hv : v &&& m = v) (hm : m &&& 0o77777 = m) :
    v &&& 0o77777 = v := by
  rw [← hv, BitVec.and_assoc, hm]

theorem setWidth_word_and_mask15 (w : Word) :
    w.setWidth 16 &&& (0o77777 : Reg) = w.setWidth 16 := by
  have hlow : (w.setWidth 16 &&& (0o77777 : Reg)).toNat = (w.setWidth 16).toNat % 2 ^ 15 :=
    toNat_and_low _ 15 (by decide)
  have hlt : (w.setWidth 16).toNat < 2 ^ 15 := by
    rw [BitVec.toNat_setWidth_of_le (by decide)]
    exact w.isLt
  exact BitVec.eq_of_toNat_eq (hlow.trans (Nat.mod_eq_of_lt hlt))

/-! ### DXCH (R190) -/

/-- DXCH's end (R190): A, then L. -/
def loadAL (s : State) (m0 m1 : Reg) : State := setReg (setReg s slotA m0) slotL m1

theorem reg_A_loadAL (s : State) (m0 m1 : Reg) : reg (loadAL s m0 m1) slotA = m0 :=
  (reg_setReg_other _ slotL slotA m1 (by decide)).trans (reg_setReg_A s m0)

theorem reg_L_loadAL (s : State) (m0 m1 : Reg) : reg (loadAL s m0 m1) slotL = m1 &&& 0o77777 :=
  reg_setReg_L _ m1

theorem reg_loadAL_other (s : State) (m0 m1 : Reg) {b : Nat} (hb : slotL < b) :
    reg (loadAL s m0 m1) b = reg s b := by
  have hL : b ≠ slotL := Nat.ne_of_gt hb
  have hA : b ≠ slotA := Nat.ne_of_gt (Nat.lt_trans (by decide) hb)
  rw [loadAL, reg_setReg_other _ slotL b m1 (by simp [Touches, hL]),
    reg_setReg_other _ slotA b m0 (by simp [Touches, hA])]

theorem readLoc_loadAL (s : State) (m0 m1 : Reg) (l : Loc) :
    readLoc (loadAL s m0 m1) l = readLoc s l := by
  rw [loadAL, readLoc_setReg, readLoc_setReg]

theorem changedOnly_then_loadAL {regs words : List Nat} {s t : State} (m0 m1 : Reg)
    (hst : ChangedOnly (slotA :: slotL :: regs) words s t) :
    ChangedOnly (slotA :: slotL :: regs) words s (loadAL t m0 m1) :=
  changedOnly_then_setReg m1 (changedOnly_then_setReg m0 hst (by simp [Touches]))
    (by simp [Touches])

theorem exec_dxch (k : Addr) (s : State) : exec (.dxch k) s = execDxch k s := by rfl

/-- DXCH completes when its reads and writes do. -/
theorem exec_dxch_of_ok {k : Addr} {s s1 s2 : State} {m0 m1 : Reg}
    (hm0 : memRead s k.toNat = .ok m0) (hm1 : memRead s (k.toNat + 1) = .ok m1)
    (hs1 : memWrite s k.toNat (reg s slotA) = .ok s1)
    (hs2 : memWrite s1 (k.toNat + 1) (reg s slotL) = .ok s2) :
    exec (.dxch k) s = .next (loadAL s2 m0 m1) := by
  simp only [exec_dxch, execDxch, pairSecond, hm0, hm1, hs1, hs2, loadAL]

theorem fitsD9_iff_toNat (k : Addr) :
    fitsD9 k = true ↔ k.toNat ≤ 0o1777 ∧ k.toNat % 2 = 0 := by
  rw [fitsD9, fitsE10, Bool.and_eq_true, decide_eq_true_iff, beq_iff_eq]

/-- Settles O27: both addresses of the pair are erasable, where no read and no write can fail. -/
theorem dxchSwapsInTheSpecsOrder : Obligations.DxchSwapsInTheSpecsOrder := by
  refine fun k hk => ⟨decodeOfEncodeIsTheInstruction (.dxch k) hk, rfl, fun s => ?_⟩
  obtain ⟨hle, heven⟩ := (fitsD9_iff_toNat k).mp hk
  have hfirst : k.toNat < 0o2000 := by omega
  have hsecond : k.toNat + 1 < 0o2000 := by omega
  obtain ⟨m0, hm0⟩ := memRead_completes s hfirst
  obtain ⟨m1, hm1⟩ := memRead_completes s hsecond
  obtain ⟨s1, hs1⟩ := memWrite_completes s k.toNat (reg s slotA) hfirst
  obtain ⟨s2, hs2⟩ := memWrite_completes s1 (k.toNat + 1) (reg s slotL) hsecond
  exact ⟨m0, m1, s1, s2, hm0, hm1, hs1, hs2, exec_dxch_of_ok hm0 hm1 hs1 hs2⟩

/-! ### DXCH of memory words (R191) -/

/-- The word an erasable address reaches: its own number, or in the window one of bank `eb`. -/
theorem index_locate_erasable (s : State) {a : Nat} (ha : a < 0o2000) :
    (locate s a).index = if a < 0o1400 then a else ebField s * 256 + (a - 0o1400) := by
  unfold locate
  split_ifs
  · exact Nat.div_add_mod' a 256
  · rfl

/-- An even address and the next lie on one side of the window's edge, so they are two words. -/
theorem index_locate_pair_ne (s : State) {a : Nat} (ha : a + 1 < 0o2000) (heven : a % 2 = 0) :
    (locate s (a + 1)).index ≠ (locate s a).index := by
  rw [index_locate_erasable s ha, index_locate_erasable s (Nat.lt_of_succ_lt ha)]
  split_ifs <;> omega

/-- The pair of words after the two stores of DXCH. -/
def storePair (s : State) (a : Nat) (v0 v1 : Word) : State :=
  storeErasable (storeErasable s (locate s a) v0) (locate s (a + 1)) v1

theorem exec_dxch_words {k : Addr} (s : State) (hk : regLimit ≤ k.toNat)
    (hk' : k.toNat + 1 < 0o2000) :
    exec (.dxch k) s =
      .next (loadAL (storePair s k.toNat ((reg s slotA).setWidth 15) ((reg s slotL).setWidth 15))
        ((readLoc s (locate s k.toNat)).setWidth 16)
        ((readLoc s (locate s (k.toNat + 1))).setWidth 16)) := by
  have hfirst : k.toNat < 0o2000 := Nat.lt_of_succ_lt hk'
  have hsecond : regLimit ≤ k.toNat + 1 := Nat.le_succ_of_le hk
  refine exec_dxch_of_ok (memRead_word s hk hfirst) (memRead_word s hsecond hk')
    (memWrite_erasable s _ _ hk hfirst) ?_
  rw [memWrite_erasable _ _ _ hsecond hk', storePair]
  rfl

theorem readLoc_storePair (s : State) {a : Nat} (v0 v1 : Word) (hmem : s.MemWf)
    (ha : a + 1 < 0o2000) (heven : a % 2 = 0) :
    readLoc (storePair s a v0 v1) (locate s a) = v0 ∧
    readLoc (storePair s a v0 v1) (locate s (a + 1)) = v1 := by
  have hfirst : a < 0o2000 := Nat.lt_of_succ_lt ha
  obtain ⟨hregion, -, -⟩ := locate_erasable s a hfirst
  obtain ⟨hregion', -, -⟩ := locate_erasable s (a + 1) ha
  have hstored : (storeErasable s (locate s a) v0).MemWf := memWf_storeErasable s a v0 hfirst hmem
  constructor
  · rw [storePair, readLoc_storeErasable_other _ v1 hregion (index_locate_pair_ne s ha heven).symm,
      readLoc_storeErasable_same s _ v0 hregion hmem.1.1]
  · rw [storePair, readLoc_storeErasable_same _ _ v1 hregion' hstored.1.1]

/-- Settles O28: the two words are distinct, and each fits L and A without loss. -/
theorem dxchSwapsAMemoryPair : Obligations.DxchSwapsAMemoryPair := by
  intro s k hfits hk hmem
  obtain ⟨hle, heven⟩ := (fitsD9_iff_toNat k).mp hfits
  have hk' : k.toNat + 1 < 0o2000 := by omega
  obtain ⟨hword, hword'⟩ := readLoc_storePair s ((reg s slotA).setWidth 15)
    ((reg s slotL).setWidth 15) hmem hk' heven
  refine ⟨_, exec_dxch_words s hk hk', reg_A_loadAL _ _ _, ?_, ?_, ?_, ?_⟩
  · rw [reg_L_loadAL, setWidth_word_and_mask15]
  · rw [readLoc_loadAL, hword]
  · rw [readLoc_loadAL, hword']
  · exact changedOnly_then_loadAL _ _ (changedOnly_then_storeErasable _
      (changedOnly_then_storeErasable _ (changedOnly_refl _ _ s) (by simp)) (by simp))

/-! ### DXCH of register pairs (R191) -/

/-- DXCH of the registers `a` and `a + 1`. -/
def swapRegs (s : State) (a : Nat) : State :=
  loadAL (setReg (setReg s a (reg s slotA)) (a + 1) (reg s slotL)) (reg s a) (reg s (a + 1))

theorem exec_dxch_registers {k : Addr} (s : State) (hk : k.toNat + 1 < regLimit) :
    exec (.dxch k) s = .next (swapRegs s k.toNat) :=
  have hfirst : k.toNat < regLimit := Nat.lt_of_succ_lt hk
  exec_dxch_of_ok (memRead_register s _ hfirst) (memRead_register s _ hk)
    (memWrite_register s _ _ hfirst) (memWrite_register _ _ _ hk)

theorem reg_A_swapRegs (s : State) (a : Nat) : reg (swapRegs s a) slotA = reg s a :=
  reg_A_loadAL _ _ _

theorem reg_L_swapRegs (s : State) (a : Nat) :
    reg (swapRegs s a) slotL = reg s (a + 1) &&& 0o77777 :=
  reg_L_loadAL _ _ _

/-- The second of a pair is never BB, so it holds what its slot stores of L. -/
theorem reg_swapRegs_second (s : State) {a : Nat} (ha : slotL < a) (ha' : a + 1 < regLimit)
    (heven : a % 2 = 0) : reg (swapRegs s a) (a + 1) = storedValue (a + 1) (reg s slotL) := by
  rw [swapRegs, reg_loadAL_other _ _ _ (Nat.lt_succ_of_lt ha),
    reg_setReg_same _ _ _ ha' (by simp only [slotBB]; omega)]

/-- What the write of the second of a pair leaves alone keeps what the write of the first gave it. -/
theorem reg_swapRegs_first (s : State) {a b : Nat} (hb : slotL < b) (h : ¬Touches (a + 1) b) :
    reg (swapRegs s a) b = reg (setReg s a (reg s slotA)) b := by
  rw [swapRegs, reg_loadAL_other _ _ _ hb, reg_setReg_other _ _ _ _ h]

theorem changedOnly_swapRegs (s : State) {a : Nat} {regs : List Nat}
    (h : ∀ b, Touches a b ∨ Touches (a + 1) b → b ∈ slotA :: slotL :: regs) :
    ChangedOnly (slotA :: slotL :: regs) [] s (swapRegs s a) :=
  changedOnly_then_loadAL _ _ (changedOnly_then_setReg _
    (changedOnly_then_setReg _ (changedOnly_refl _ _ s) fun b hb => h b (.inl hb))
    fun b hb => h b (.inr hb))

/-- A and L with themselves: each of the four writes puts back what its register holds. -/
theorem exec_dxch_zero {s : State} (hregs : s.RegsWf) : exec (.dxch 0) s = .next s := by
  have hA : setReg s slotA (reg s slotA) = s := setReg_reg_self s slotA hregs (by decide)
  have hL : setReg s slotL (reg s slotL) = s := setReg_reg_self s slotL hregs (by decide)
  have hswap : swapRegs s slotA = s := by
    rw [swapRegs, loadAL, hA, show slotA + 1 = slotL from rfl, hL, hA, hL]
  exact (exec_dxch_registers s (by decide)).trans (congrArg Host.Outcome.next hswap)

/-- Q and EB. -/
theorem dxch_Q_EB {s : State} (hregs : s.RegsWf) :
    ∃ t, exec (.dxch 2) s = .next t ∧ reg t slotQ = reg s slotA ∧
      reg t slotEB = reg s slotL &&& 0o3400 ∧ reg t slotA = reg s slotQ ∧ reg t slotL = reg s slotEB ∧
      ChangedOnly [slotA, slotL, slotQ, slotEB, slotBB] [] s t := by
  obtain ⟨-, hEB, -⟩ := hregs
  rw [← reg_eq_slot s slotEB (by decide)] at hEB
  refine ⟨_, exec_dxch_registers s (by decide), ?_, ?_, reg_A_swapRegs s _, ?_, ?_⟩
  · exact (reg_swapRegs_first s (by decide) (by decide)).trans
      (reg_setReg_same s slotQ _ (by decide) (by decide))
  · exact reg_swapRegs_second s (by decide) (by decide) (by decide)
  · exact (reg_L_swapRegs s _).trans (and_mask15_of_masked hEB (by decide))
  · exact changedOnly_swapRegs s (by simp [Touches, or_imp, forall_and])

/-- FB and Z, a jump with a bank change. -/
theorem dxch_FB_Z {s : State} (hregs : s.RegsWf) :
    ∃ t, exec (.dxch 4) s = .next t ∧ reg t slotFB = reg s slotA &&& 0o76000 ∧
      reg t slotZ = reg s slotL &&& 0o7777 ∧ reg t slotA = reg s slotFB ∧ reg t slotL = reg s slotZ ∧
      ChangedOnly [slotA, slotL, slotFB, slotZ, slotBB] [] s t := by
  obtain ⟨-, -, -, hZ, -⟩ := hregs
  rw [← reg_eq_slot s slotZ (by decide)] at hZ
  refine ⟨_, exec_dxch_registers s (by decide), ?_, ?_, reg_A_swapRegs s _, ?_, ?_⟩
  · exact (reg_swapRegs_first s (by decide) (by decide)).trans
      (reg_setReg_same s slotFB _ (by decide) (by decide))
  · exact reg_swapRegs_second s (by decide) (by decide) (by decide)
  · exact (reg_L_swapRegs s _).trans (and_mask15_of_masked hZ (by decide))
  · exact changedOnly_swapRegs s (by simp [Touches, or_imp, forall_and])

/-- BB and slot 07: the write of BB goes to FB and EB. -/
theorem dxch_BB_07 (s : State) :
    ∃ t, exec (.dxch 6) s = .next t ∧ reg t slotFB = reg s slotA &&& 0o76000 ∧
      reg t slotEB = (reg s slotA &&& 7) <<< 8 ∧ reg t 7 = reg s slotL ∧
      reg t slotA = reg s slotBB ∧ reg t slotL = reg s 7 &&& 0o77777 ∧
      ChangedOnly [slotA, slotL, slotFB, slotEB, slotBB, 7] [] s t := by
  refine ⟨_, exec_dxch_registers s (by decide), ?_, ?_, ?_, reg_A_swapRegs s _,
    reg_L_swapRegs s _, ?_⟩
  · exact (reg_swapRegs_first s (by decide) (by decide)).trans (reg_setReg_bb_fb s _)
  · exact (reg_swapRegs_first s (by decide) (by decide)).trans (reg_setReg_bb_eb_eq s _)
  · exact reg_swapRegs_second s (by decide) (by decide) (by decide)
  · exact changedOnly_swapRegs s (by simp [Touches, or_imp, forall_and])

/-- CYR and slot 021: the write of CYR edits. -/
theorem dxch_CYR_021 (s : State) :
    ∃ t, exec (.dxch 0o20) s = .next t ∧ reg t slotCYR = rotr15 (reg s slotA) ∧
      reg t 0o21 = reg s slotL ∧ reg t slotA = reg s slotCYR ∧
      reg t slotL = reg s 0o21 &&& 0o77777 ∧
      ChangedOnly [slotA, slotL, slotCYR, 0o21] [] s t := by
  refine ⟨_, exec_dxch_registers s (by decide), ?_, ?_, reg_A_swapRegs s _, reg_L_swapRegs s _, ?_⟩
  · exact (reg_swapRegs_first s (by decide) (by decide)).trans (reg_setReg_cyr s _)
  · exact reg_swapRegs_second s (by decide) (by decide) (by decide)
  · exact changedOnly_swapRegs s (by simp [Touches, or_imp, forall_and])

/-- Any other pair of registers: both are plain slots. -/
theorem dxch_plain_pair (s : State) {k : Addr} (heven : k.toNat % 2 = 0) (hk : 0o10 ≤ k.toNat)
    (hk' : k.toNat < 0o60) (hcyr : k.toNat ≠ 0o20) :
    ∃ t, exec (.dxch k) s = .next t ∧ reg t k.toNat = reg s slotA ∧
      reg t (k.toNat + 1) = reg s slotL ∧ reg t slotA = reg s k.toNat ∧
      reg t slotL = reg s (k.toNat + 1) &&& 0o77777 ∧
      ChangedOnly [slotA, slotL, k.toNat, k.toNat + 1] [] s t := by
  have hplain : Config.PlainSlot k.toNat := ⟨by omega, by omega, hcyr⟩
  have hplain' : Config.PlainSlot (k.toNat + 1) := ⟨by omega, by omega, by omega⟩
  have hL : slotL < k.toNat := Nat.lt_of_lt_of_le (by decide) hk
  have hother : ¬Touches (k.toNat + 1) k.toNat := by
    simp only [Touches, slotBB, slotEB, slotFB]; omega
  refine ⟨_, exec_dxch_registers s (Nat.succ_lt_succ hk'), ?_, ?_, reg_A_swapRegs s _,
    reg_L_swapRegs s _, ?_⟩
  · rw [reg_swapRegs_first s hL hother, reg_setReg_plain hplain]
  · rw [swapRegs, reg_loadAL_other _ _ _ (Nat.lt_succ_of_lt hL), reg_setReg_plain hplain']
  · refine changedOnly_swapRegs s fun b hb => ?_
    simp only [Touches, slotBB, slotEB, slotFB] at hb
    simp only [List.mem_cons, List.not_mem_nil, or_false]
    omega

/-- Register 060 and erasable word 061, the pair across the register file's end. -/
theorem dxch_060_061 {s : State} (hmem : s.MemWf) :
    ∃ t, exec (.dxch 0o60) s = .next t ∧ reg t 0o60 = reg s slotA ∧
      readLoc t ⟨.erasable, 0, 0o61⟩ = (reg s slotL).setWidth 15 ∧ reg t slotA = reg s 0o60 ∧
      reg t slotL = (readLoc s ⟨.erasable, 0, 0o61⟩).setWidth 16 ∧
      ChangedOnly [slotA, slotL, 0o60] [0o61] s t := by
  have hwrite : memWrite (setReg s 0o60 (reg s slotA)) 0o61 (reg s slotL) =
      .ok (storeErasable (setReg s 0o60 (reg s slotA)) ⟨.erasable, 0, 0o61⟩
        ((reg s slotL).setWidth 15)) := memWrite_erasable _ 0o61 _ (by decide) (by decide)
  refine ⟨_, exec_dxch_of_ok (memRead_register s 0o60 (by decide))
    (memRead_word s (a := 0o61) (by decide) (by decide))
    (memWrite_register s 0o60 _ (by decide)) hwrite, ?_, ?_, reg_A_loadAL _ _ _, ?_, ?_⟩
  · rw [reg_loadAL_other _ _ _ (by decide), reg_storeErasable,
      reg_setReg_plain (by decide)]
  · rw [readLoc_loadAL, readLoc_storeErasable_same _ _ _ rfl (memWf_setReg s _ _ hmem).1.1]
  · rw [reg_L_loadAL, setWidth_word_and_mask15]
    rfl
  · exact changedOnly_then_loadAL _ _ (changedOnly_then_storeErasable _
      (changedOnly_then_setReg _ (changedOnly_refl _ _ s) (by simp [Touches])) (by decide))

/-- Settles O29: the pairs one by one. -/
theorem dxchOfRegisterPairs : Obligations.DxchOfRegisterPairs := fun s hregs =>
  ⟨exec_dxch_zero hregs, dxch_Q_EB hregs, dxch_FB_Z hregs, dxch_BB_07 s, dxch_CYR_021 s,
    fun _ => dxch_plain_pair s, dxch_060_061⟩

/-! ### TS (R192) -/

theorem exec_ts (k : Addr) (s : State) : exec (.ts k) s = execTs k s := by rfl

theorem exec_ts_of_ok {k : Addr} {s s1 : State} (hs1 : memWrite s k.toNat (reg s slotA) = .ok s1) :
    exec (.ts k) s = .next (skipOnOverflow s1) := by
  simp only [exec_ts, execTs, hs1]

/-- Without overflow there is no skip. -/
theorem skipOnOverflow_of_none {s : State} (h : ovf (reg s slotA) = .none) : skipOnOverflow s = s := by
  simp only [skipOnOverflow, h]

/-- With overflow A keeps its sign alone, and Z, which the write of A leaves as it was, advances. -/
theorem skipOnOverflow_of_overflow {s : State} (h : ovf (reg s slotA) ≠ .none) :
    skipOnOverflow s =
      setZ (setReg s slotA (if ovf (reg s slotA) = .positive then 1 else 0o177776))
        (reg s slotZ + 1) := by
  have hZ : ∀ v, reg (setReg s slotA v) slotZ = reg s slotZ := fun v =>
    reg_setReg_other s slotA slotZ v (by decide)
  cases hovf : ovf (reg s slotA) with
  | none => exact absurd hovf h
  | positive | negative => simp [skipOnOverflow, hovf, advanceZ, hZ]

/-- Settles O30: the write to an erasable address cannot fail, and the skip is the model's. -/
theorem tsStoresThenSkipsOnOverflow : Obligations.TsStoresThenSkipsOnOverflow := by
  refine fun k hk => ⟨decodeOfEncodeIsTheInstruction (.ts k) hk, rfl, fun s => ?_⟩
  have hlt : k.toNat < 0o2000 := Nat.lt_succ_of_le (decide_eq_true_iff.mp hk)
  obtain ⟨s1, hs1⟩ := memWrite_completes s k.toNat (reg s slotA) hlt
  refine ⟨s1, hs1, ?_⟩
  rw [exec_ts_of_ok hs1]
  cases hovf : ovf (reg s1 slotA) with
  | none => rw [skipOnOverflow_of_none hovf]
  | positive | negative => rw [skipOnOverflow_of_overflow (by simp [hovf])]; simp [hovf]

/-! ### What the skip does (R192) -/

theorem reg_A_skipOnOverflow (s : State) :
    reg (skipOnOverflow s) slotA = if ovf (reg s slotA) = .positive then 1
      else if ovf (reg s slotA) = .negative then 0o177776 else reg s slotA := by
  cases hovf : ovf (reg s slotA) with
  | none => simp [skipOnOverflow_of_none hovf]
  | positive | negative =>
    rw [skipOnOverflow_of_overflow (by simp [hovf]), reg_setZ_other _ _ _ (by decide), reg_setReg_A]
    simp [hovf]

theorem reg_Z_skipOnOverflow (s : State) :
    reg (skipOnOverflow s) slotZ =
      if ovf (reg s slotA) = .none then reg s slotZ else (reg s slotZ + 1) &&& 0o7777 := by
  split_ifs with hovf
  · rw [skipOnOverflow_of_none hovf]
  · rw [skipOnOverflow_of_overflow hovf, reg_setZ]

theorem changedOnly_skipOnOverflow (s : State) :
    ChangedOnly [slotA, slotZ] [] s (skipOnOverflow s) := by
  by_cases hovf : ovf (reg s slotA) = .none
  · rw [skipOnOverflow_of_none hovf]
    exact changedOnly_refl _ _ s
  · rw [skipOnOverflow_of_overflow hovf]
    exact changedOnly_then_setReg _ (changedOnly_setReg (by simp [Touches])) (by simp [Touches])

theorem readLoc_skipOnOverflow (s : State) (l : Loc) :
    readLoc (skipOnOverflow s) l = readLoc s l := by
  by_cases hovf : ovf (reg s slotA) = .none
  · rw [skipOnOverflow_of_none hovf]
  · rw [skipOnOverflow_of_overflow hovf, setZ, readLoc_setReg, readLoc_setReg]

/-! ### TS to memory and to registers (R193) -/

/-- Settles O31: the store leaves A and Z as they were, so the skip tests the A of before. -/
theorem tsToMemoryChangesOneWord : Obligations.TsToMemoryChangesOneWord := by
  intro s k hfits hk hmem
  have hlt : k.toNat < 0o2000 := Nat.lt_succ_of_le (decide_eq_true_iff.mp hfits)
  obtain ⟨hregion, -, -⟩ := locate_erasable s k.toNat hlt
  have hstore := changedOnly_storeErasable s (locate s k.toNat) ((reg s slotA).setWidth 15)
  refine ⟨_, exec_ts_of_ok (memWrite_erasable s _ _ hk hlt), ?_, fun hovf => ?_,
    fun hovf => ⟨?_, ?_, ?_⟩⟩
  · rw [readLoc_skipOnOverflow, readLoc_storeErasable_same s _ _ hregion hmem.1.1]
  · rwa [skipOnOverflow_of_none (by rwa [reg_storeErasable])]
  · rw [reg_A_skipOnOverflow, reg_storeErasable]
    cases h : ovf (reg s slotA) with
    | none => exact absurd h hovf
    | positive | negative => rfl
  · rw [reg_Z_skipOnOverflow, reg_storeErasable, reg_storeErasable, if_neg hovf]
  · exact changedOnly_trans (changedOnly_mono (List.nil_subset _) (List.Subset.refl _) hstore)
      (changedOnly_mono (List.Subset.refl _) (List.nil_subset _) (changedOnly_skipOnOverflow _))

/-- A write to a register reaches Z only when it is Z. -/
theorem reg_Z_setReg (s : State) (a : Nat) (v : Reg) :
    reg (setReg s a v) slotZ = if a = slotZ then v &&& 0o7777 else reg s slotZ := by
  split_ifs with ha
  · subst ha
    exact reg_setZ s v
  · exact reg_setReg_other s a slotZ v (by simp [Touches, Ne.symm ha])

/-- Settles O32: the register write, then the skip, which tests the A of before. -/
theorem tsToRegisters : Obligations.TsToRegisters := by
  intro s k hk
  have hwrite := memWrite_register s k.toNat (reg s slotA) hk
  have hA : reg (setReg s k.toNat (reg s slotA)) slotA = reg s slotA := reg_A_memWrite s _ _ hwrite
  obtain ⟨-, -, -, hframe⟩ := registerWritesFollowTheTable s k.toNat (reg s slotA) hk
  obtain ⟨hother, -⟩ := changedOnly_skipOnOverflow (setReg s k.toNat (reg s slotA))
  refine ⟨_, exec_ts_of_ok hwrite, fun hkA hkZ => hother _ hk (by simp [hkA, hkZ]), ?_, ?_, ?_⟩
  · rw [reg_A_skipOnOverflow, hA]
  · rw [reg_Z_skipOnOverflow, hA, reg_Z_setReg]
  · refine changedOnly_trans (changedOnly_mono ?_ (List.Subset.refl _) hframe)
      (changedOnly_mono ?_ (List.Subset.refl _) (changedOnly_skipOnOverflow _))
    · exact fun b hb => List.mem_cons_of_mem _ (List.mem_cons_of_mem _ hb)
    · simp

end Sys2Proof.Proofs

/-! The unprogrammed sequences (45_unprogrammed_sequences.md R201 to R205): each counts its TIME
cell, and what it chains or posts follows the overflow. -/

namespace Sys2Proof.Proofs

open Sys2Proof.Machine

/-! ### Counting a cell, on register values -/

/-- What a count leaves in a cell that held `v` (R34). -/
def counted (v : Reg) : Reg := if 0o77777 ≤ v then 0 else v + 1

/-- The increment of a plain slot, with the wrap said on register values. -/
theorem increment_plain_counted (s : State) {r : Nat} (h : Config.PlainSlot r) :
    ((increment s r).2 = true ↔ 0o77777 ≤ reg s r) ∧
    reg (increment s r).1 r = counted (reg s r) ∧ ChangedOnly [r] [] s (increment s r).1 := by
  obtain ⟨hovf, hcount, hframe⟩ := increment_plain s h
  refine ⟨by rw [hovf, decide_eq_true_iff]; rfl, BitVec.eq_of_toNat_eq ?_, hframe⟩
  rw [hcount, counted]
  by_cases hc : 0x7FFF ≤ (reg s r).toNat
  · rw [if_pos hc, if_pos (show 0o77777 ≤ reg s r from hc)]
    rfl
  · have hnowrap : (reg s r).toNat + 1 < 2 ^ 16 := by omega
    rw [if_neg hc, if_neg (show ¬0o77777 ≤ reg s r from hc)]
    exact (BitVec.toNat_add_of_lt (y := 1) hnowrap).symm

/-! ### TIME1 and TIME2 (R201, R202) -/

/-- Settles O39: the count of TIME1, whose overflow decides the chain. -/
theorem pincTime1CountsAndChains : Obligations.PincTime1CountsAndChains := by
  refine ⟨rfl, fun s hvalid => ?_⟩
  obtain ⟨hovf, hcount, hframe⟩ := increment_plain_counted s (plainSlot_timeCell hvalid .pincTime1)
  exact ⟨(increment s s.params.addrTime1).1, congrArg (Prod.mk _) (if_congr hovf rfl rfl), hcount,
    hframe⟩

/-- Settles O40: the count of TIME2, whose overflow is dropped. -/
theorem pincTime2OnlyCounts : Obligations.PincTime2OnlyCounts := by
  refine ⟨rfl, fun s hvalid => ?_⟩
  obtain ⟨-, hcount, hframe⟩ := increment_plain_counted s (plainSlot_timeCell hvalid .pincTime2)
  exact ⟨(increment s s.params.addrTime2).1, rfl, hcount, hframe⟩

/-! ### TIME3, TIME4 and TIME5 (R203 to R205) -/

/-- A posting sequence chains nothing. -/
theorem pincPosting_child (s : State) (c i : Nat) : (pincPosting s c i).2 = none := rfl

/-- A posting adds `i` to the pending indices, on overflow alone. -/
theorem mem_pending_pincPosting (s : State) (c i j : Nat) :
    j ∈ (pincPosting s c i).1.pending ↔
      j ∈ s.pending ∨ ((increment s c).2 = true ∧ j = i) := by
  cases hovf : (increment s c).2 with
  | false => simp [pincPosting, hovf]
  | true => simp [pincPosting, hovf, mem_insertIndex, or_comm]

/-- But for `pending`, a posting sequence leaves the state its increment does. -/
theorem pincPosting_restore_pending (s : State) (c i : Nat) :
    { (pincPosting s c i).1 with pending := s.pending } = (increment s c).1 := by
  rw [← increment_pending s c]
  cases hovf : (increment s c).2 <;> simp only [pincPosting, hovf, post] <;> rfl

/-- What the three posting sequences share: the count, the posting on overflow, and the frame. -/
theorem pincPosting_plain (s : State) {c : Nat} (i : Nat) (h : Config.PlainSlot c) :
    reg (pincPosting s c i).1 c = counted (reg s c) ∧
    (∀ j, j ∈ (pincPosting s c i).1.pending ↔ j ∈ s.pending ∨ (0o77777 ≤ reg s c ∧ j = i)) ∧
    ChangedOnly [c] [] s { (pincPosting s c i).1 with pending := s.pending } := by
  obtain ⟨hovf, hcount, hframe⟩ := increment_plain_counted s h
  refine ⟨(reg_congr _ _ (regs_pincPosting s c i) c).trans hcount, fun j => ?_, ?_⟩
  · rw [mem_pending_pincPosting, hovf]
  · rwa [pincPosting_restore_pending]

/-- Settles O41: each of the three is the shared posting at its own cell and index. -/
theorem pincTime3To5CountAndPost : Obligations.PincTime3To5CountAndPost := by
  refine ⟨rfl, rfl, rfl, rfl, rfl, rfl, fun s q c i hvalid hmem => ?_⟩
  have hrun : executeSeq q s = pincPosting s c i ∧ timeCell s.params q = c := by
    simp only [List.mem_cons, Prod.mk.injEq, List.not_mem_nil, or_false] at hmem
    rcases hmem with ⟨rfl, rfl, rfl⟩ | ⟨rfl, rfl, rfl⟩ | ⟨rfl, rfl, rfl⟩ <;> exact ⟨rfl, rfl⟩
  obtain ⟨hexec, rfl⟩ := hrun
  exact ⟨_, hexec.trans (Prod.ext rfl (pincPosting_child s _ i)),
    pincPosting_plain s i (plainSlot_timeCell hvalid q)⟩

end Sys2Proof.Proofs

/-! ## The counter timers and interrupt entry (R232 to R234, R240) -/

namespace Sys2Proof.Proofs

open Sys2Proof.Machine

/-! ### The counter timers (R240) -/

theorem advanceTimers_seqStack (s : State) (n : Nat) :
    (advanceTimers s n).seqStack = rolledOver s n ++ s.seqStack := by
  simp only [advanceTimers, rolledOver, pushIf_seqStack, tick_wrapped, decide_eq_true_eq]
  split_ifs <;> rfl

/-- But for the accumulators and the stack, the timers leave everything as it was. -/
theorem changedOnly_advanceTimers (s : State) (n : Nat) :
    ChangedOnly [] [] s { advanceTimers s n with timers := s.timers, seqStack := s.seqStack } :=
  ⟨fun a _ _ => reg_congr _ _ (advanceTimers_regs s n) a, by simp, by simp, by simp [SameControl]⟩

/-- Settles O43: the pushes and the accumulators follow the ticks of the four timers. -/
theorem timersAdvanceInOrder : Obligations.TimersAdvanceInOrder := fun s n => by
  refine ⟨advanceTimers_seqStack s n, ?accumulators, changedOnly_advanceTimers s n⟩
  rw [advanceTimers_timers]
  intro acc hacc
  simp only [List.mem_cons, List.not_mem_nil, or_false] at hacc
  rcases hacc with rfl | rfl | rfl | rfl <;> exact tick_acc _ _ _

/-! ### Writes to a plain slot -/

/-- A write to a plain slot touches no other register. -/
theorem not_touches_plain {r b : Nat} (h : Config.PlainSlot r) (hb : b ≠ r) : ¬Touches r b := by
  obtain ⟨-, -, hEB, hFB, -, hBB, -⟩ := plainSlot_ne h
  rintro (e | ⟨e, -⟩ | ⟨-, e | e⟩)
  exacts [hb e, hBB e, hEB e, hFB e]

theorem reg_setReg_plain_other {r b : Nat} (h : Config.PlainSlot r) (s : State) (v : Reg)
    (hb : b ≠ r) : reg (setReg s r v) b = reg s b :=
  reg_setReg_other s r b v (not_touches_plain h hb)

/-- A write that does not touch the bank registers moves no location. -/
theorem locate_setReg {r : Nat} (s : State) (v : Reg) (hEB : ¬Touches r slotEB)
    (hFB : ¬Touches r slotFB) (a : Nat) : locate (setReg s r v) a = locate s a := by
  unfold locate ebField fbField
  rw [slot_setReg_other s r slotEB v hEB, slot_setReg_other s r slotFB v hFB, setReg_sb]

/-- A write to a plain slot is seen by no read but that of the slot. -/
theorem memRead_setReg_plain {r a : Nat} (h : Config.PlainSlot r) (s : State) (v : Reg)
    (ha : a ≠ r) : memRead (setReg s r v) a = memRead s a := by
  obtain ⟨-, -, hEB, hFB, -⟩ := plainSlot_ne h
  have hlocate : locate (setReg s r v) a = locate s a :=
    locate_setReg s v (not_touches_plain h hEB.symm) (not_touches_plain h hFB.symm) a
  simp only [memRead, bankedRead, reg_setReg_plain_other h s v ha, hlocate, readLoc_setReg,
    setReg_params]

/-! ### Interrupt entry (R232) -/

/-- ZRUPT and BRUPT are two plain slots. -/
theorem plainSlot_rupt {p : Config.Params} (h : p.Valid) :
    Config.PlainSlot p.addrZrupt ∧ Config.PlainSlot p.addrBrupt ∧ p.addrZrupt ≠ p.addrBrupt := by
  obtain ⟨hplain, hdistinct, -⟩ := h
  refine ⟨hplain _ (by simp), hplain _ (by simp), fun e => ?_⟩
  simp [e] at hdistinct

/-- Saving Z leaves Z as it was. -/
theorem zAddr_saveZ {s : State} (h : s.params.Valid) : zAddr (saveZ s) = zAddr s := by
  obtain ⟨hplain, -, -⟩ := plainSlot_rupt h
  obtain ⟨-, -, -, -, hZ, -⟩ := plainSlot_ne hplain
  exact congrArg BitVec.toNat (reg_setReg_plain_other hplain s _ hZ.symm)

/-- The vectors of the indices below 512 are CPU addresses, so Z holds them whole. -/
theorem reg_setZ_vector (s : State) {i : Nat} (hi : i < 512) :
    (reg (setZ s (vector i)) slotZ).toNat = 0o4000 + 4 * i := by
  have hmask : (vector i &&& (0o7777 : Reg)).toNat = (vector i).toNat % 2 ^ 12 :=
    toNat_and_low _ 12 (by decide)
  rw [reg_setZ, hmask, vector, BitVec.toNat_ofNat]
  omega

/-- The registers that interrupt entry writes, in its order: ZRUPT, BRUPT with the word `w`, Z. -/
def enter (s : State) (i : Nat) (w : Reg) : State :=
  setZ (setReg (saveZ s) s.params.addrBrupt w) (vector i)

/-- Interrupt entry, when the read of BRUPT's word succeeds. -/
theorem deliver_of_memRead_ok {s : State} (i : Nat) {w : Reg}
    (hw : memRead (saveZ s) (zAddr (saveZ s)) = .ok w) :
    deliver s i = .ok { enter s i w with
      intsOff := true, pending := s.pending.filter (fun j => j ≠ i) } := by
  simp only [deliver, hw, enter, saveZ_params, setZ_pending, setReg_pending, saveZ_pending]

/-- The read of BRUPT's word is the only part of interrupt entry that can fault. -/
theorem deliver_eq_error_iff {s : State} {i : Nat} {f : Fault} :
    deliver s i = .error f ↔ memRead (saveZ s) (zAddr (saveZ s)) = .error f := by
  cases hr : memRead (saveZ s) (zAddr (saveZ s)) with
  | error e => simp [deliver, hr]
  | ok w => simp [deliver_of_memRead_ok i hr]

/-- What the three register writes of interrupt entry leave. -/
theorem enter_spec {s : State} (h : s.params.Valid) {i : Nat} (hi : i < 512) (w : Reg) :
    reg (enter s i w) s.params.addrZrupt = reg s slotZ ∧
    reg (enter s i w) s.params.addrBrupt = w ∧
    (reg (enter s i w) slotZ).toNat = 0o4000 + 4 * i ∧
    ChangedOnly [s.params.addrZrupt, s.params.addrBrupt, slotZ] [] s (enter s i w) := by
  obtain ⟨hZrupt, hBrupt, hne⟩ := plainSlot_rupt h
  obtain ⟨-, -, -, -, hZ, -⟩ := plainSlot_ne hZrupt
  obtain ⟨-, -, -, -, hZ', -⟩ := plainSlot_ne hBrupt
  have hsave : ChangedOnly [s.params.addrZrupt, s.params.addrBrupt, slotZ] [] s (saveZ s) :=
    changedOnly_mono (by simp) (List.Subset.refl _) (changedOnly_setReg_plain hZrupt s _)
  have hbrupt := changedOnly_trans hsave
    (changedOnly_mono (by simp) (List.Subset.refl _) (changedOnly_setReg_plain hBrupt (saveZ s) w))
  refine ⟨?_, ?_, reg_setZ_vector _ hi, changedOnly_then_setReg _ hbrupt (by simp [Touches])⟩
  · rw [enter, reg_setZ_other _ _ _ hZ, reg_setReg_plain_other hBrupt _ _ hne, saveZ,
      reg_setReg_plain hZrupt]
  · rw [enter, reg_setZ_other _ _ _ hZ', reg_setReg_plain hBrupt]

/-- Settles O46: the read of BRUPT's word decides between the fault and the three register writes. -/
theorem interruptEntrySavesAndVectors : Obligations.InterruptEntrySavesAndVectors := by
  refine ⟨rfl, rfl, fun s i hvalid _ hi => ?_⟩
  obtain ⟨hplain, -, -⟩ := plainSlot_rupt hvalid
  have hZ : (reg s slotZ).toNat = zAddr (saveZ s) := (zAddr_saveZ hvalid).symm
  rw [← saveZ, hZ]
  refine ⟨fun w hw => ?_, fun f => deliver_eq_error_iff.mpr, memRead_setReg_plain hplain s _⟩
  obtain ⟨hzrupt, hbrupt, hvector, hframe⟩ := enter_spec hvalid hi w
  refine ⟨_, deliver_of_memRead_ok i hw, hzrupt, hbrupt, hvector, rfl, fun j => ?_, ?_⟩
  · simp
  · obtain ⟨hregs, hbytes, hfixed, hsb, -, -, hrest⟩ := hframe
    exact ⟨hregs, hbytes, hfixed, hsb, rfl, rfl, hrest⟩

/-! ### Which interrupt is taken (R233, R234) -/

theorem deliverInterrupt_of_none {s : State} (h : deliverable s = none) :
    deliverInterrupt s = .ok s := by
  simp only [deliverInterrupt, h]

theorem deliverInterrupt_of_some {s : State} {i : Nat} (h : deliverable s = some i) :
    deliverInterrupt s = deliver s i := by
  simp only [deliverInterrupt, h]

/-- No interrupt is deliverable exactly when none is pending or interrupts are off. -/
theorem deliverable_eq_none_iff (s : State) :
    deliverable s = none ↔ s.pending = [] ∨ s.intsOff = true := by
  unfold deliverable
  split_ifs with hoff
  · simp [hoff]
  · simp [hoff, List.min?_eq_none_iff]

/-- Settles O47: the deliverable interrupt is the lowest pending one, and taking it turns interrupts
off. -/
theorem lowestPendingInterruptIsTaken : Obligations.LowestPendingInterruptIsTaken := by
  refine fun s => ⟨fun h => deliverInterrupt_of_none ((deliverable_eq_none_iff s).mpr h),
    fun hpending hoff => ?_⟩
  cases hd : deliverable s with
  | none => exact absurd ((deliverable_eq_none_iff s).mp hd) (by simp [hpending, hoff])
  | some i =>
    obtain ⟨-, hi, hlow⟩ := deliverable_some s i hd
    have htaken := deliverInterrupt_of_some hd
    refine ⟨i, hi, hlow, htaken, fun t ht => ?_⟩
    obtain ⟨-, hoff', -⟩ := deliver_control s t i (htaken.symm.trans ht)
    exact ⟨hoff', deliverInterrupt_of_none ((deliverable_eq_none_iff t).mpr (.inr hoff'))⟩

end Sys2Proof.Proofs

/-! ## Which faults a step can raise (R220, R222) -/

namespace Sys2Proof.Proofs

open Sys2Proof.Machine

/-! ### Reads out of range -/

/-- `OutOfRange` at an address of the fixed window, for a bank of the 40 at or above the limit. -/
def IsWindowFault (limit : Nat) (f : Fault) : Prop :=
  ∃ a b, f = .outOfRange a (some b) ∧ 0o2000 ≤ a ∧ a < 0o4000 ∧ limit ≤ b ∧ b < 40

theorem four_le_fixedBankLimit {p : Config.Params} (h : p.Valid) : 4 ≤ p.fixedBankLimit := by
  obtain ⟨-, -, -, -, -, hlimit, -⟩ := h
  exact hlimit

/-- A limit that admits banks 2 and 3 leaves only window addresses unreadable. -/
theorem window_of_not_readable {s : State} {a : Nat} (hlimit : 4 ≤ s.params.fixedBankLimit)
    (ha : a < cpuLimit) (h : ¬Readable s a) : 0o2000 ≤ a ∧ a < 0o4000 := by
  refine ⟨fixed_of_not_readable ha h, Nat.not_le.mp fun hhigh => ?_⟩
  obtain ⟨-, -, hbank⟩ := (not_readable_iff ha).mp h
  have hunswitched : (locate s a).bank < 4 := by
    unfold locate
    split_ifs <;> simp <;> omega
  omega

theorem isWindowFault_of_not_readable {s : State} {a : Nat} (hlimit : 4 ≤ s.params.fixedBankLimit)
    (ha : a < cpuLimit) (h : ¬Readable s a) :
    IsWindowFault s.params.fixedBankLimit (.outOfRange a (some (locate s a).bank)) := by
  obtain ⟨hlow, hhigh⟩ := window_of_not_readable hlimit ha h
  obtain ⟨-, -, hbank⟩ := (not_readable_iff ha).mp h
  obtain ⟨-, hexists, -⟩ := locate_fixed s a hlow ha
  exact ⟨a, _, rfl, hlow, hhigh, hbank, hexists⟩

theorem isWindowFault_of_memRead_error {s : State} {a : Nat} {f : Fault}
    (hlimit : 4 ≤ s.params.fixedBankLimit) (ha : a < cpuLimit) (h : memRead s a = .error f) :
    IsWindowFault s.params.fixedBankLimit f := by
  have hread : ¬Readable s a := fun hr => by
    obtain ⟨v, hv⟩ := memRead_readable s a hr
    exact absurd (hv.symm.trans h) (by simp)
  obtain rfl := Except.error.inj ((memRead_of_not_readable ha hread).symm.trans h)
  exact isWindowFault_of_not_readable hlimit ha hread

/-! ### The instructions -/

/-- A load completes, or its operand is unreadable. -/
theorem loadA_cases (f : Reg → Reg) (k : Addr) (s : State) :
    (∃ t, loadA f k s = .next t) ∨ ¬Readable s k.toNat ∧
      loadA f k s = .fault (.outOfRange k.toNat (some (locate s k.toNat).bank)) := by
  by_cases hread : Readable s k.toNat
  · obtain ⟨v, hv⟩ := memRead_readable s k.toNat hread
    obtain ⟨t, ht, -⟩ := loadA_of_memRead_ok f hv
    exact .inl ⟨t, ht⟩
  · exact .inr ⟨hread, loadA_of_not_readable f hread⟩

/-- Every well-formed instruction completes, but for a load whose operand is unreadable. -/
theorem exec_cases {i : Instr} (h : i.wellFormed = true) (s : State) :
    (∃ t, exec i s = .next t) ∨
    ∃ k, (i = .ca k ∨ i = .cs k) ∧ ¬Readable s k.toNat ∧
      exec i s = .fault (.outOfRange k.toNat (some (locate s k.toNat).bank)) := by
  cases i with
  | relint => exact .inl ⟨_, exec_relint s⟩
  | inhint => exact .inl ⟨_, exec_inhint s⟩
  | tcf k => exact .inl ⟨_, exec_tcf k s⟩
  | ca k => exact (loadA_cases _ k s).imp_right fun hfault => ⟨k, .inl rfl, hfault⟩
  | cs k => exact (loadA_cases _ k s).imp_right fun hfault => ⟨k, .inr rfl, hfault⟩
  | dxch k =>
    obtain ⟨-, -, hall⟩ := dxchSwapsInTheSpecsOrder k h
    obtain ⟨m0, m1, s1, s2, -, -, -, -, hexec⟩ := hall s
    exact .inl ⟨_, hexec⟩
  | ts k =>
    obtain ⟨-, -, hall⟩ := tsStoresThenSkipsOnOverflow k h
    obtain ⟨s1, -, hexec⟩ := hall s
    exact .inl ⟨_, hexec⟩

theorem regsWf_loadA {f : Reg → Reg} {k : Addr} {s t : State} (ht : loadA f k s = .next t)
    (h : s.RegsWf) : t.RegsWf := by
  obtain ⟨v, -, ⟨-, hw⟩ | ⟨-, rfl⟩⟩ := loadA_next f k s t ht
  · exact regsWf_memWrite _ t _ _ (regsWf_setReg s slotA (f v) h) hw
  · exact regsWf_setReg s slotA (f v) h

theorem regsWf_skipOnOverflow {s : State} (h : s.RegsWf) : (skipOnOverflow s).RegsWf := by
  by_cases hovf : ovf (reg s slotA) = .none
  · rwa [skipOnOverflow_of_none hovf]
  · rw [skipOnOverflow_of_overflow hovf]
    exact regsWf_setReg _ _ _ (regsWf_setReg s _ _ h)

/-- An instruction keeps the registers within their masks, whatever the memories hold. -/
theorem regsWf_exec {i : Instr} {s t : State} (ht : exec i s = .next t) (h : s.RegsWf) :
    t.RegsWf := by
  cases i with
  | relint => cases ht; exact regsWf_congr s _ rfl h
  | inhint => cases ht; exact regsWf_congr s _ rfl h
  | tcf k => cases ht; exact regsWf_setReg s slotZ _ h
  | ca k => exact regsWf_loadA ht h
  | cs k => exact regsWf_loadA ht h
  | dxch k =>
    obtain ⟨m0, m1, s1, s2, -, -, h1, h2, rfl⟩ := execDxch_next k s t ht
    have hstored : s2.RegsWf := regsWf_memWrite s1 s2 _ _ (regsWf_memWrite s s1 _ _ h h1) h2
    exact regsWf_setReg _ slotL m1 (regsWf_setReg s2 slotA m0 hstored)
  | ts k =>
    obtain ⟨s1, h1, rfl⟩ := execTs_next k s t ht
    exact regsWf_skipOnOverflow (regsWf_memWrite s s1 _ _ h h1)

/-! ### The parts of a step -/

/-- The fetch answers a well-formed instruction, the failure to decode the word at Z, or the fault of
the read at Z. -/
theorem fetchInstr_cases (s : State) :
    (∃ i, fetchInstr s = .ok i ∧ i.wellFormed = true) ∨
    (∃ w, fetchInstr s = .error (.decodeFailure w (zAddr s))) ∨
    (∃ f, memRead s (zAddr s) = .error f ∧ fetchInstr s = .error f) := by
  cases hread : memRead s (zAddr s) with
  | error f => exact .inr (.inr ⟨f, rfl, by simp [fetchInstr, fetchWord, hread]⟩)
  | ok v =>
    cases hdecode : decode (v.setWidth 15) with
    | error e => exact .inr (.inl ⟨_, fetchInstr_of_undecodable hread hdecode⟩)
    | ok i =>
      obtain ⟨-, hwf⟩ := encodeOfDecodeIsTheWord _ i hdecode
      exact .inl ⟨i, fetchInstr_of_decode hread hdecode, hwf⟩

/-- A step of a running machine stops in the fetch, or in a load whose operand is unreadable, or its
phase 1 completes. -/
theorem step_cases {s : State} (hf : s.fault = none) :
    (∃ f, s.seqStack = [] ∧ fetchInstr s = .error f ∧ step s = .fault f) ∨
    (∃ k : Addr, ¬Readable (advanceZ s) k.toNat ∧
      step s = .fault (.outOfRange k.toNat (some (locate (advanceZ s) k.toNat).bank))) ∨
    ∃ n u, Phase1Ends s n u ∧ step s = finishStep n u := by
  cases hs : s.seqStack with
  | cons q rest =>
    exact .inr (.inr ⟨_, _, .inl ⟨q, rest, hs, rfl, rfl⟩, step_of_seqStack hf hs⟩)
  | nil =>
    cases hfetch : fetchInstr s with
    | error f => exact .inl ⟨f, rfl, rfl, (step_of_fetchInstr_error hf hs hfetch).1⟩
    | ok i =>
      have hwf : i.wellFormed = true := by simpa [hfetch] using fetchInstr_cases s
      rcases exec_cases hwf (advanceZ s) with ⟨u, hexec⟩ | ⟨k, -, hread, hexec⟩
      · exact .inr (.inr ⟨_, u, .inr ⟨hs, i, hfetch, hexec, rfl⟩,
          step_of_exec_next hf hs hfetch hexec⟩)
      · exact .inr (.inl ⟨k, hread, by simp only [step, cycle, hf, hs, hfetch, hexec]⟩)

/-- Z still names a CPU address when phase 1 has ended: a sequence leaves Z alone, and an instruction
keeps its mask. -/
theorem Phase1Ends.zAddr_lt {s u : State} {n : Nat} (h : Phase1Ends s n u) (hregs : s.RegsWf)
    (hvalid : s.params.Valid) (hf : s.fault = none) : zAddr u < cpuLimit := by
  rcases h with ⟨q, rest, hs, -, rfl⟩ | ⟨-, i, -, hexec, -⟩
  · obtain ⟨-, hZ, -⟩ := sequenceStepsLeaveZ s q rest hf hs hvalid
    rw [zAddr, hZ]
    exact Machine.zAddr_lt s hregs
  · exact Machine.zAddr_lt u (regsWf_exec hexec (regsWf_setReg s slotZ _ hregs))

theorem finishStep_ne_refused (n : Nat) (s : State) (r : Refusal) : finishStep n s ≠ .refused r := by
  unfold finishStep
  cases deliverInterrupt (phase2 n s) <;> simp [orFault]

/-- The end of a step faults only in the read of BRUPT's word. -/
theorem memRead_of_finishStep_fault {n : Nat} {s : State} {f : Fault}
    (h : finishStep n s = .fault f) :
    memRead (saveZ (phase2 n s)) (zAddr (saveZ (phase2 n s))) = .error f := by
  cases hd : deliverable (phase2 n s) with
  | none => simp [finishStep, deliverInterrupt_of_none hd, orFault] at h
  | some i =>
    rw [finishStep, deliverInterrupt_of_some hd] at h
    cases hdeliver : deliver (phase2 n s) i with
    | ok t => simp [hdeliver, orFault] at h
    | error e =>
      rw [hdeliver, orFault, Host.Outcome.fault.injEq] at h
      subst h
      exact deliver_eq_error_iff.mp hdeliver

theorem isWindowFault_of_finishStep {n : Nat} {s : State} {f : Fault} (hvalid : s.params.Valid)
    (hZ : zAddr s < cpuLimit) (h : finishStep n s = .fault f) :
    IsWindowFault s.params.fixedBankLimit f := by
  have hvalid2 : (phase2 n s).params.Valid := by rwa [phase2_params]
  have hparams : (saveZ (phase2 n s)).params = s.params := by rw [saveZ_params, phase2_params]
  have hZ2 : zAddr (saveZ (phase2 n s)) = zAddr s :=
    (zAddr_saveZ hvalid2).trans (congrArg BitVec.toNat (reg_congr _ _ (phase2_regs n s) slotZ))
  have hread := memRead_of_finishStep_fault h
  rw [hZ2] at hread
  have hlimit := four_le_fixedBankLimit hvalid
  rw [← hparams] at hlimit ⊢
  exact isWindowFault_of_memRead_error hlimit hZ hread

/-- A step faults in its decode, or in a read of the fixed window: the fetch, a load's operand, or
BRUPT's word. -/
theorem step_fault {s : State} {f : Fault} (hregs : s.RegsWf) (hvalid : s.params.Valid)
    (hf : s.fault = none) (h : step s = .fault f) :
    (∃ w, f = .decodeFailure w (reg s slotZ).toNat ∧ s.seqStack = []) ∨
    IsWindowFault s.params.fixedBankLimit f := by
  have hlimit := four_le_fixedBankLimit hvalid
  rcases step_cases hf with ⟨e, hs, hfetch, hstep⟩ | ⟨k, hread, hstep⟩ | ⟨n, u, hu, hstep⟩
  · obtain rfl := Host.Outcome.fault.inj (hstep.symm.trans h)
    rcases fetchInstr_cases s with ⟨i, hi, -⟩ | ⟨w, hw⟩ | ⟨e', hread, he'⟩
    · exact absurd (hi.symm.trans hfetch) (by simp)
    · exact .inl ⟨w, Except.error.inj (hfetch.symm.trans hw), hs⟩
    · obtain rfl := Except.error.inj (he'.symm.trans hfetch)
      exact .inr (isWindowFault_of_memRead_error hlimit (zAddr_lt s hregs) hread)
  · obtain rfl := Host.Outcome.fault.inj (hstep.symm.trans h)
    rw [← advanceZ_params] at hlimit ⊢
    exact .inr (isWindowFault_of_not_readable hlimit k.isLt hread)
  · obtain ⟨-, -, -, -, hparams⟩ := hu.control
    have hend := isWindowFault_of_finishStep (by rwa [hparams]) (hu.zAddr_lt hregs hvalid hf)
      (hstep.symm.trans h)
    exact .inr (hparams ▸ hend)

theorem step_ne_refused {s : State} (hf : s.fault = none) (r : Refusal) : step s ≠ .refused r := by
  rcases step_cases hf with ⟨f, -, -, hstep⟩ | ⟨k, -, hstep⟩ | ⟨n, u, -, hstep⟩
  · simp [hstep]
  · simp [hstep]
  · rw [hstep]
    exact finishStep_ne_refused n u r

/-- Settles O55: the faults of a step are the decode's and those of the fixed window, which with all
40 banks admitted has none. -/
theorem onlyTheseFaultsCanHappen : Obligations.OnlyTheseFaultsCanHappen := by
  intro s hregs hvalid hf
  have hfault := fun f => step_fault (f := f) hregs hvalid hf
  refine ⟨step_ne_refused hf, hfault, fun h40 f h => ?full, fun i f hwf h => ?instruction⟩
  case full =>
    rcases hfault f h with ⟨w, hw, -⟩ | ⟨a, b, -, -, -, habove, hbelow⟩
    · exact ⟨w, hw⟩
    · omega
  case instruction =>
    rcases exec_cases hwf s with ⟨t, ht⟩ | ⟨k, hk, hread, -⟩
    · exact absurd (ht.symm.trans h) (by simp)
    · exact ⟨k, hk, window_of_not_readable (four_le_fixedBankLimit hvalid) k.isLt hread⟩

end Sys2Proof.Proofs

/-! ## Reset and step time (R240, R260, R275) -/

namespace Sys2Proof.Proofs

open Sys2Proof.Machine

/-! ### The timers over a whole step (R240, R275) -/

/-- Only phase 2 moves the timers, and by what the step adds to the MCT total: phase 1 leaves both
alone, and so does interrupt entry. -/
theorem step_timers {s t : State} (h : step s = .next t) :
    ∃ n, t.mct = s.mct + n ∧ t.timers = (advanceTimers s n).timers := by
  obtain ⟨-, n, u, hu, hend⟩ := step_next_phases h
  obtain ⟨-, -, hut, -, hup⟩ := hu.control
  obtain ⟨-, -, htt, hadd, -⟩ := finishStep_control n u t hend
  refine ⟨n, by rw [hadd, hu.mct], ?_⟩
  rw [htt, phase2_timers, advanceTimers_timers, hut, hup]

/-- Settles O44: the timers advance by the step's own MCT, which O43 says accumulator by
accumulator. -/
theorem timersCountStepTime : Obligations.TimersCountStepTime := by
  intro s t h
  obtain ⟨n, hmct, htimers⟩ := step_timers h
  have hdelta : (t.mct : Int) - s.mct = n := by omega
  obtain ⟨-, haccs, -⟩ := timersAdvanceInOrder s n
  rw [hdelta, htimers]
  exact haccs

/-! ### The reset state (R260) -/

/-- After reset every register but Z reads 0, BB too: it is a view of two zeros. -/
theorem reg_resetWith (p : Config.Params) (image : Memory) (a : Nat) :
    reg (State.resetWith p image) a = if a = slotZ then p.resetZ.setWidth 16 else 0 := by
  by_cases ha : a = slotBB
  · subst ha
    simp [reg_bb, slot_resetWith, bbView]
  · rw [reg_eq_slot _ a ha, slot_resetWith]

/-- With no image, erasable and fixed memory alike read 0 everywhere (D22). -/
theorem readLoc_reset (l : Loc) : readLoc State.reset l = 0 := by
  unfold readLoc
  cases l.region with
  | erasable => exact readWord_nil _
  | fixed => exact readWord_nil _

/-- Settles O50: the registers and the words by the lemmas above, each other field as the reset
writes it. -/
theorem resetIsTheSpecs : Obligations.ResetIsTheSpecs :=
  ⟨fun a _ => reg_resetWith Config.defaults [] a, rfl, rfl, rfl, rfl, rfl, rfl, readLoc_reset, rfl,
    fun p image => ⟨rfl, rfl, reg_resetWith p image slotZ⟩⟩

/-- The defaults of R10 make sense (log entry 13). -/
theorem defaults_valid : Config.defaults.Valid := by decide

/-- Settles O52: a reset with sensible parameters and a canonical image meets the invariant, and
the empty image is canonical. -/
theorem invHoldsAtReset : Obligations.InvHoldsAtReset :=
  inv_resetWith defaults_valid (Memory.wf_nil fixedWords)

end Sys2Proof.Proofs
